-- ==== Sys2Proof/Word.lean ====
section
/-! DEFINITION. The words of the machine: widths only (spec/10_state.md R20, spec/30_encoding.md R91). -/

namespace Sys2Proof

/-- A register value, a memory byte, a timer value, a byte literal KK (R9: always read as an unsigned number). -/
abbrev Byte := BitVec 8

/-- An instruction word, and what PC, I and a stack entry hold: 16 bits, bit 0 the least significant (R8). -/
abbrev Word := BitVec 16

/-- The literal NNN of an instruction word: 12 bits (R91). -/
abbrev Lit12 := BitVec 12

/-- The literal N of an instruction word: 4 bits (R91). -/
abbrev Nibble := BitVec 4

/-- The number of a general register, V0 to VF (R21). -/
abbrev RegIx := Fin 16

/-- The number of a key of the pad (R31). -/
abbrev KeyIx := Fin 16

end Sys2Proof
end

