-- ==== Sys2Proof/Syntax.lean ====
section
/-! DEFINITION. The instructions: one constructor per row of spec/opcode_table.json, in the table's order
(spec/30_encoding.md R96). A register operand is a register number, a literal has the width its field has
(R91, R93), so an operand that no word can hold cannot be written. -/

namespace Sys2Proof

/-- The 34 instructions of R96. `x` and `y` are the X and Y fields, `kk`, `n` and `nnn` the literals. -/
inductive Instr where
  /-- 00E0 -/
  | cls
  /-- 00EE -/
  | ret
  /-- 1NNN -/
  | jp (nnn : Lit12)
  /-- 2NNN -/
  | call (nnn : Lit12)
  /-- 3XKK -/
  | seKk (x : RegIx) (kk : Byte)
  /-- 4XKK -/
  | sneKk (x : RegIx) (kk : Byte)
  /-- 5XY0 -/
  | seVy (x y : RegIx)
  /-- 6XKK -/
  | ldKk (x : RegIx) (kk : Byte)
  /-- 7XKK -/
  | addKk (x : RegIx) (kk : Byte)
  /-- 8XY0 -/
  | ldVy (x y : RegIx)
  /-- 8XY1 -/
  | orVy (x y : RegIx)
  /-- 8XY2 -/
  | andVy (x y : RegIx)
  /-- 8XY3 -/
  | xorVy (x y : RegIx)
  /-- 8XY4 -/
  | addVy (x y : RegIx)
  /-- 8XY5 -/
  | sub (x y : RegIx)
  /-- 8XY6; the Y field is decoded and ignored (R99). -/
  | shr (x y : RegIx)
  /-- 8XY7 -/
  | subn (x y : RegIx)
  /-- 8XYE; the Y field is decoded and ignored (R99). -/
  | shl (x y : RegIx)
  /-- 9XY0 -/
  | sneVy (x y : RegIx)
  /-- ANNN -/
  | ldI (nnn : Lit12)
  /-- BNNN -/
  | jpV0 (nnn : Lit12)
  /-- CXKK -/
  | rnd (x : RegIx) (kk : Byte)
  /-- DXYN -/
  | drw (x y : RegIx) (n : Nibble)
  /-- EX9E -/
  | skp (x : RegIx)
  /-- EXA1 -/
  | sknp (x : RegIx)
  /-- FX07 -/
  | ldVxDt (x : RegIx)
  /-- FX0A -/
  | ldVxK (x : RegIx)
  /-- FX15 -/
  | ldDtVx (x : RegIx)
  /-- FX18 -/
  | ldStVx (x : RegIx)
  /-- FX1E -/
  | addIVx (x : RegIx)
  /-- FX29 -/
  | ldFVx (x : RegIx)
  /-- FX33 -/
  | ldBVx (x : RegIx)
  /-- FX55 -/
  | stInd (x : RegIx)
  /-- FX65 -/
  | ldInd (x : RegIx)
  deriving DecidableEq, Repr

end Sys2Proof
end

