-- ==== Sys2Proof/WellFormed.lean ====
section
/-! DEFINITION. Which operands a format of spec/30_encoding.md R92 admits, as plain numbers (R93, R102):
the check an assembler makes before it builds a word. The operand types of `Instr` are exactly these ranges, so
every `Instr` passes (Laws/PerInstr.lean), and a number that no field can hold is refused here. -/

namespace Sys2Proof

/-- The six formats of R92. -/
inductive Format where
  | fixed | nnn | xkk | xyn | xys | xss
  deriving DecidableEq, Repr

/-- Operands as plain numbers; a field the format lacks is not looked at. -/
structure RawOperands where
  x : Nat := 0
  y : Nat := 0
  n : Nat := 0
  kk : Nat := 0
  nnn : Nat := 0
  deriving DecidableEq, Repr

/-- R93, R102: register numbers and N are 0 to 15, KK is 0 to 0xFF, NNN is 0 to 0xFFF. -/
def Format.admits (f : Format) (o : RawOperands) : Bool :=
  match f with
  | .fixed => true
  | .nnn => decide (o.nnn ≤ 0xFFF)
  | .xkk => decide (o.x ≤ 15) && decide (o.kk ≤ 0xFF)
  | .xyn => decide (o.x ≤ 15) && decide (o.y ≤ 15) && decide (o.n ≤ 15)
  | .xys => decide (o.x ≤ 15) && decide (o.y ≤ 15)
  | .xss => decide (o.x ≤ 15)

/-- The format column of R96. -/
def Instr.format (i : Instr) : Format :=
  match i with
  | .cls | .ret => .fixed
  | .jp _ | .call _ | .ldI _ | .jpV0 _ => .nnn
  | .seKk _ _ | .sneKk _ _ | .ldKk _ _ | .addKk _ _ | .rnd _ _ => .xkk
  | .drw _ _ _ => .xyn
  | .seVy _ _ | .sneVy _ _ | .ldVy _ _ | .orVy _ _ | .andVy _ _ | .xorVy _ _ | .addVy _ _ | .sub _ _
  | .shr _ _ | .subn _ _ | .shl _ _ => .xys
  | .skp _ | .sknp _ | .ldVxDt _ | .ldVxK _ | .ldDtVx _ | .ldStVx _ | .addIVx _ | .ldFVx _ | .ldBVx _
  | .stInd _ | .ldInd _ => .xss

/-- The operands of an instruction as plain numbers. -/
def Instr.rawOperands (i : Instr) : RawOperands :=
  match i with
  | .cls | .ret => { }
  | .jp a | .call a | .ldI a | .jpV0 a => { nnn := a.toNat }
  | .seKk x k | .sneKk x k | .ldKk x k | .addKk x k | .rnd x k => { x := x.val, kk := k.toNat }
  | .drw x y n => { x := x.val, y := y.val, n := n.toNat }
  | .seVy x y | .sneVy x y | .ldVy x y | .orVy x y | .andVy x y | .xorVy x y | .addVy x y | .sub x y
  | .shr x y | .subn x y | .shl x y => { x := x.val, y := y.val }
  | .skp x | .sknp x | .ldVxDt x | .ldVxK x | .ldDtVx x | .ldStVx x | .addIVx x | .ldFVx x | .ldBVx x
  | .stInd x | .ldInd x => { x := x.val }

/-- An instruction is well formed when its format admits its operands. -/
def Instr.wellFormed (i : Instr) : Bool :=
  i.format.admits i.rawOperands

end Sys2Proof
end

