-- ==== Sys2Proof/Decode.lean ====
section
/-! DEFINITION. From words and bytes to instructions and back (spec/30_encoding.md R90 to R99, R104).
Decoding is total and depends on the word alone (R95); a word of no row is rejected as `illegal` (R98). -/

namespace Sys2Proof

/-- The X field, bits 11:8 (R91). -/
def fieldX (w : Word) : RegIx := (w.extractLsb' 8 4).toFin

/-- The Y field, bits 7:4 (R91). -/
def fieldY (w : Word) : RegIx := (w.extractLsb' 4 4).toFin

/-- The N field, bits 3:0 (R91). -/
def fieldN (w : Word) : Nibble := w.extractLsb' 0 4

/-- The KK field, bits 7:0 (R91). -/
def fieldKK (w : Word) : Byte := w.extractLsb' 0 8

/-- The NNN field, bits 11:0 (R91). -/
def fieldNNN (w : Word) : Lit12 := w.extractLsb' 0 12

/-- One row of the table of R96: its pattern, match and mask, and the instruction its words stand for. -/
structure Row where
  pattern : String
  val : Word
  mask : Word
  build : Word → Instr

/-- R95: a word is the row's exactly when `(IW AND mask) = match`. -/
def Row.matchesWord (r : Row) (w : Word) : Bool := w &&& r.mask == r.val

/-- Rows 1 to 9 of R96. -/
def rowsFlow : List Row :=
  [ ⟨"00E0", 0x00E0, 0xFFFF, fun _ => .cls⟩,
    ⟨"00EE", 0x00EE, 0xFFFF, fun _ => .ret⟩,
    ⟨"1NNN", 0x1000, 0xF000, fun w => .jp (fieldNNN w)⟩,
    ⟨"2NNN", 0x2000, 0xF000, fun w => .call (fieldNNN w)⟩,
    ⟨"3XKK", 0x3000, 0xF000, fun w => .seKk (fieldX w) (fieldKK w)⟩,
    ⟨"4XKK", 0x4000, 0xF000, fun w => .sneKk (fieldX w) (fieldKK w)⟩,
    ⟨"5XY0", 0x5000, 0xF00F, fun w => .seVy (fieldX w) (fieldY w)⟩,
    ⟨"6XKK", 0x6000, 0xF000, fun w => .ldKk (fieldX w) (fieldKK w)⟩,
    ⟨"7XKK", 0x7000, 0xF000, fun w => .addKk (fieldX w) (fieldKK w)⟩ ]

/-- Rows 10 to 18 of R96: family 8. -/
def rowsAlu : List Row :=
  [ ⟨"8XY0", 0x8000, 0xF00F, fun w => .ldVy (fieldX w) (fieldY w)⟩,
    ⟨"8XY1", 0x8001, 0xF00F, fun w => .orVy (fieldX w) (fieldY w)⟩,
    ⟨"8XY2", 0x8002, 0xF00F, fun w => .andVy (fieldX w) (fieldY w)⟩,
    ⟨"8XY3", 0x8003, 0xF00F, fun w => .xorVy (fieldX w) (fieldY w)⟩,
    ⟨"8XY4", 0x8004, 0xF00F, fun w => .addVy (fieldX w) (fieldY w)⟩,
    ⟨"8XY5", 0x8005, 0xF00F, fun w => .sub (fieldX w) (fieldY w)⟩,
    ⟨"8XY6", 0x8006, 0xF00F, fun w => .shr (fieldX w) (fieldY w)⟩,
    ⟨"8XY7", 0x8007, 0xF00F, fun w => .subn (fieldX w) (fieldY w)⟩,
    ⟨"8XYE", 0x800E, 0xF00F, fun w => .shl (fieldX w) (fieldY w)⟩ ]

/-- Rows 19 to 25 of R96: families 9 to E. -/
def rowsMiddle : List Row :=
  [ ⟨"9XY0", 0x9000, 0xF00F, fun w => .sneVy (fieldX w) (fieldY w)⟩,
    ⟨"ANNN", 0xA000, 0xF000, fun w => .ldI (fieldNNN w)⟩,
    ⟨"BNNN", 0xB000, 0xF000, fun w => .jpV0 (fieldNNN w)⟩,
    ⟨"CXKK", 0xC000, 0xF000, fun w => .rnd (fieldX w) (fieldKK w)⟩,
    ⟨"DXYN", 0xD000, 0xF000, fun w => .drw (fieldX w) (fieldY w) (fieldN w)⟩,
    ⟨"EX9E", 0xE09E, 0xF0FF, fun w => .skp (fieldX w)⟩,
    ⟨"EXA1", 0xE0A1, 0xF0FF, fun w => .sknp (fieldX w)⟩ ]

/-- Rows 26 to 34 of R96: family F. -/
def rowsMisc : List Row :=
  [ ⟨"FX07", 0xF007, 0xF0FF, fun w => .ldVxDt (fieldX w)⟩,
    ⟨"FX0A", 0xF00A, 0xF0FF, fun w => .ldVxK (fieldX w)⟩,
    ⟨"FX15", 0xF015, 0xF0FF, fun w => .ldDtVx (fieldX w)⟩,
    ⟨"FX18", 0xF018, 0xF0FF, fun w => .ldStVx (fieldX w)⟩,
    ⟨"FX1E", 0xF01E, 0xF0FF, fun w => .addIVx (fieldX w)⟩,
    ⟨"FX29", 0xF029, 0xF0FF, fun w => .ldFVx (fieldX w)⟩,
    ⟨"FX33", 0xF033, 0xF0FF, fun w => .ldBVx (fieldX w)⟩,
    ⟨"FX55", 0xF055, 0xF0FF, fun w => .stInd (fieldX w)⟩,
    ⟨"FX65", 0xF065, 0xF0FF, fun w => .ldInd (fieldX w)⟩ ]

/-- The table of R96, in its order. -/
def opcodeRows : List Row := rowsFlow ++ rowsAlu ++ rowsMiddle ++ rowsMisc

/-- Why the decoder gives no instruction. -/
inductive Reject where
  /-- The word matches no row (R98): the cycle that fetched it raises DecodeError. -/
  | illegal
  /-- Fewer than two bytes: no whole instruction word (R90). -/
  | tooShort
  deriving DecidableEq, Repr

/-- R95, over any list of rows: the instruction of the first row the word matches. -/
def decodeWith (rows : List Row) (w : Word) : Except Reject Instr :=
  match rows.find? (fun r => r.matchesWord w) with
  | some r => .ok (r.build w)
  | none => .error .illegal

/-- R95: the decoder of the machine. -/
def decode (w : Word) : Except Reject Instr := decodeWith opcodeRows w

/-- R62: the byte at the lower address is the high byte of the word. -/
def wordOfBytes (hi lo : Byte) : Word := hi ++ lo

/-- R62, R104: the byte that stands at the lower address. -/
def highByte (w : Word) : Byte := w.extractLsb' 8 8

/-- R62, R104: the byte that stands at the higher address. -/
def lowByte (w : Word) : Byte := w.extractLsb' 0 8

/-- R90: the instruction at the head of a byte sequence, with the bytes after it. -/
def decodeBytes (bytes : List Byte) : Except Reject (Instr × List Byte) :=
  match bytes with
  | hi :: lo :: rest =>
    match decode (wordOfBytes hi lo) with
    | .ok i => .ok (i, rest)
    | .error e => .error e
  | _ => .error .tooShort

/-- R104: a register number shifted to its field. -/
def placeReg (x : RegIx) (lo : Nat) : Word := BitVec.ofNat 16 x.val <<< lo

/-- R104: the word is `match` OR the field values shifted into place. -/
def encode (i : Instr) : Word :=
  match i with
  | .cls => 0x00E0
  | .ret => 0x00EE
  | .jp nnn => 0x1000 ||| nnn.setWidth 16
  | .call nnn => 0x2000 ||| nnn.setWidth 16
  | .seKk x kk => 0x3000 ||| placeReg x 8 ||| kk.setWidth 16
  | .sneKk x kk => 0x4000 ||| placeReg x 8 ||| kk.setWidth 16
  | .seVy x y => 0x5000 ||| placeReg x 8 ||| placeReg y 4
  | .ldKk x kk => 0x6000 ||| placeReg x 8 ||| kk.setWidth 16
  | .addKk x kk => 0x7000 ||| placeReg x 8 ||| kk.setWidth 16
  | .ldVy x y => 0x8000 ||| placeReg x 8 ||| placeReg y 4
  | .orVy x y => 0x8001 ||| placeReg x 8 ||| placeReg y 4
  | .andVy x y => 0x8002 ||| placeReg x 8 ||| placeReg y 4
  | .xorVy x y => 0x8003 ||| placeReg x 8 ||| placeReg y 4
  | .addVy x y => 0x8004 ||| placeReg x 8 ||| placeReg y 4
  | .sub x y => 0x8005 ||| placeReg x 8 ||| placeReg y 4
  | .shr x y => 0x8006 ||| placeReg x 8 ||| placeReg y 4
  | .subn x y => 0x8007 ||| placeReg x 8 ||| placeReg y 4
  | .shl x y => 0x800E ||| placeReg x 8 ||| placeReg y 4
  | .sneVy x y => 0x9000 ||| placeReg x 8 ||| placeReg y 4
  | .ldI nnn => 0xA000 ||| nnn.setWidth 16
  | .jpV0 nnn => 0xB000 ||| nnn.setWidth 16
  | .rnd x kk => 0xC000 ||| placeReg x 8 ||| kk.setWidth 16
  | .drw x y n => 0xD000 ||| placeReg x 8 ||| placeReg y 4 ||| n.setWidth 16
  | .skp x => 0xE09E ||| placeReg x 8
  | .sknp x => 0xE0A1 ||| placeReg x 8
  | .ldVxDt x => 0xF007 ||| placeReg x 8
  | .ldVxK x => 0xF00A ||| placeReg x 8
  | .ldDtVx x => 0xF015 ||| placeReg x 8
  | .ldStVx x => 0xF018 ||| placeReg x 8
  | .addIVx x => 0xF01E ||| placeReg x 8
  | .ldFVx x => 0xF029 ||| placeReg x 8
  | .ldBVx x => 0xF033 ||| placeReg x 8
  | .stInd x => 0xF055 ||| placeReg x 8
  | .ldInd x => 0xF065 ||| placeReg x 8

/-- R104: the two bytes emitted, `word[15:8]` then `word[7:0]`. -/
def encodeBytes (i : Instr) : List Byte := [highByte (encode i), lowByte (encode i)]

/-- The word of a table row's bits: the first (and only) word, every bit above `nbits` zero. -/
def tableWord (nbits w : Nat) : Word := BitVec.ofNat 16 (w % 2 ^ nbits)

/-- The instruction the decoder reads from an instruction whose bits, numbered as spec/opcode_table.json numbers
them, are `w`: the word is laid out as memory holds it (R62) and its bytes are decoded. -/
def decodeTableWord (nbits w : Nat) : Option Instr :=
  match decodeBytes [highByte (tableWord nbits w), lowByte (tableWord nbits w)] with
  | .ok (i, _) => some i
  | .error _ => none

end Sys2Proof
end

