-- ==== Sys2Proof/Machine/Flags.lean ====
section
/-! DEFINITION. Every flag value an instruction writes to VF (spec/10_state.md R22, spec/42_alu.md R166 to R170,
spec/43_index_memory.md R181, spec/44_display.md R202), from the operands before the instruction. -/

namespace Sys2Proof.Machine

/-- A flag as the byte VF receives: 1 or 0. -/
def flagByte (c : Bool) : Byte := if c then 1 else 0

/-- R166: carry out of bit 7, `V[X] + V[Y] > 255`. -/
def carryFlag (a b : Byte) : Byte := flagByte (decide (a.toNat + b.toNat > 255))

/-- R167, R169: the strict comparison `a > b`, 0 for equal operands. -/
def noBorrowFlag (a b : Byte) : Byte := flagByte (decide (a.toNat > b.toNat))

/-- R168: the bit shifted out to the right, bit 0. -/
def shiftedOutRight (a : Byte) : Byte := a &&& 0x01

/-- R170: the bit shifted out to the left, bit 7. -/
def shiftedOutLeft (a : Byte) : Byte := flagByte (a.getLsbD 7)

/-- R181: the index sum passes the top of memory, `I + V[X] > 0xFFF`. -/
def indexOverflowFlag (i : Word) (b : Byte) : Byte := flagByte (decide (i.toNat + b.toNat > 0xFFF))

/-- R202: at least one pixel that was on is turned off. -/
def collisionFlag (hit : Bool) : Byte := flagByte hit

end Sys2Proof.Machine
end

