-- ==== Sys2Proof/Config.lean ====
section
/-! DEFINITION. What the spec fixes for this hardware (spec/00_scope.md R7), and the one free value.
The font bytes, the key selection and the choice among pressed keys are parameters of R7 too; they stand in
Machine/Memory.lean, Machine/Operands.lean and Machine/Cycle.lean beside the operations that use them. -/

namespace Sys2Proof.Config

/-- `MEM_SIZE`: bytes of memory (R7, R61). -/
abbrev memSize : Nat := 4096

/-- The highest address (R61). -/
abbrev maxAddr : Nat := 0xFFF

/-- `PROG_BASE`: where a program is loaded, and PC at reset (R7, R23). -/
abbrev progBase : Nat := 0x200

/-- `FONT_BASE`: the address of glyph 0 (R7, R70). -/
abbrev fontBase : Nat := 0

/-- `ROM_MAX`: the longest program load_program accepts, `MEM_SIZE - PROG_BASE` (R7, R245). -/
abbrev romMax : Nat := 3584

/-- FREE VALUE (log 1). `rand_in`: the byte presented to the n-th executed CXKK (R40, R171).
It has no body: nothing can be proved about any of its bytes. -/
opaque randIn : Nat → Byte

end Sys2Proof.Config
end

