-- ==== Sys2Proof/Machine/State.lean ====
section
/-! DEFINITION. The state of the core: the thirteen elements of spec/10_state.md R20, and the counter that numbers
the free draws. Plain data. With it the reasons a step can stop, and the machine right after reset (R45). -/

namespace Sys2Proof.Machine

/-- `MEM` (R29): cells by rising address, none equal to what an unlisted address reads as (`Memory.wf`).
An unlisted address reads as reset leaves it (`Memory.resetByte`). -/
abbrev Memory := List Host.Cell

/-- `FB` (R32): 32 rows of 64 pixels, `true` is on. -/
abbrev FrameBuffer := Vector (Vector Bool 64) 32

/-- The whole state of the core (R20, R35). -/
structure State where
  /-- `MEM` (R29) -/
  mem : Memory
  /-- `V[0]` to `V[15]`; `V[15]` is VF (R21, R22) -/
  v : Vector Byte 16
  /-- `I` (R24) -/
  i : Word
  /-- `PC` (R23): between cycles the address of the next instruction, during dispatch `npc` -/
  pc : Word
  /-- `STACK[0]` to `STACK[15]`, dead entries included (R25) -/
  stack : Vector Word 16
  /-- `SP`, the number of occupied entries, 0 to 16 (R26; log 5) -/
  sp : Fin 17
  /-- `DT` (R27) -/
  dt : Byte
  /-- `ST` (R28) -/
  st : Byte
  /-- `KEY[0]` to `KEY[15]`, `true` is pressed (R31) -/
  key : Vector Bool 16
  /-- `FB` (R32) -/
  fb : FrameBuffer
  /-- `CHG` (R33) -/
  chg : Bool
  /-- `WAITV` (R34) -/
  waitV : Bool
  /-- `WAITX` (R34) -/
  waitX : RegIx
  /-- THE MODEL'S OWN FIELD, not the spec's: how many bytes of `rand_in` have been drawn (log 1, log 2) -/
  draws : Nat
  deriving DecidableEq, Repr

/-- The errors of spec/60_exceptions.md R230. A step that ends in one leaves the state as it was (R236, log 4).
Each is the spec's own error at the spec's own condition, so stopping there is safe. -/
inductive Fault where
  /-- Raised by a fetch with PC > 0xFFE and by DRW, LD_B_VX, ST_IND, LD_IND out of range (R231). Safe. -/
  | memoryOverflow
  /-- Raised by CALL with SP = 16 (R232). Safe. -/
  | stackOverflow
  /-- Raised by RET with SP = 0 (R233). Safe. -/
  | stackUnderflow
  /-- Raised by a cycle whose fetched word is illegal (R234). Safe. -/
  | decodeError
  /-- Raised by the host operation load_program alone, never by a cycle (R235, R245). Safe. -/
  | romTooLarge
  deriving DecidableEq, Repr

/-- Why the model gives no meaning. No step of this model ends in one. -/
inductive Refusal where
  /-- Raised by an arm of `exec` whose instruction has no meaning yet; there is none. Safe. -/
  | notModelled (mnemonic : String)
  deriving DecidableEq, Repr

/-- R45, R260: every element at its reset value. Memory lists nothing: unlisted addresses read as reset leaves
them. `draws` is the model's own field; its 0 is a DESIGN CHOICE (log 2). -/
def State.reset : State where
  mem := []
  v := Vector.replicate 16 0
  i := 0
  pc := BitVec.ofNat 16 Config.progBase
  stack := Vector.replicate 16 0
  sp := 0
  dt := 0
  st := 0
  key := Vector.replicate 16 false
  fb := Vector.replicate 32 (Vector.replicate 64 false)
  chg := false
  waitV := false
  waitX := 0
  draws := 0

end Sys2Proof.Machine
end

