-- ==== Sys2Proof/Machine/Memory.lean ====
section
/-! DEFINITION. Memory as plain data: what reset leaves in it, one byte read and written, the canonical form
(spec/20_memory.md R61, R67 to R71). Bounds are checked by the operations of Machine/Ops.lean. -/

namespace Sys2Proof.Machine

/-- Glyphs 0 to 7 of `FONT` (R71, which the spec marks as general knowledge; PRESUMED, log 6). -/
def fontLow : List Byte :=
  [0xF0, 0x90, 0x90, 0x90, 0xF0] ++ [0x20, 0x60, 0x20, 0x20, 0x70] ++ [0xF0, 0x10, 0xF0, 0x80, 0xF0] ++
  [0xF0, 0x10, 0xF0, 0x10, 0xF0] ++ [0x90, 0x90, 0xF0, 0x10, 0x10] ++ [0xF0, 0x80, 0xF0, 0x10, 0xF0] ++
  [0xF0, 0x80, 0xF0, 0x90, 0xF0] ++ [0xF0, 0x10, 0x20, 0x40, 0x40]

/-- Glyphs 8 to F of `FONT` (R71, as `fontLow`). -/
def fontHigh : List Byte :=
  [0xF0, 0x90, 0xF0, 0x90, 0xF0] ++ [0xF0, 0x90, 0xF0, 0x10, 0xF0] ++ [0xF0, 0x90, 0xF0, 0x90, 0x90] ++
  [0xE0, 0x90, 0xE0, 0x90, 0xE0] ++ [0xF0, 0x80, 0x80, 0x80, 0xF0] ++ [0xE0, 0x90, 0x90, 0x90, 0xE0] ++
  [0xF0, 0x80, 0xF0, 0x80, 0xF0] ++ [0xF0, 0x80, 0xF0, 0x80, 0x80]

/-- `FONT` (R7, R71): the 80 bytes reset writes from `FONT_BASE` up. -/
def font : List Byte := fontLow ++ fontHigh

/-- What reset leaves at an address, and so what an address that memory does not list reads as (R45). -/
def Memory.resetByte (a : Nat) : Byte :=
  if Config.fontBase ≤ a then font.getD (a - Config.fontBase) 0 else 0

/-- `MEM[a]`. -/
def Memory.read (m : Memory) (a : Nat) : Byte :=
  match m with
  | [] => Memory.resetByte a
  | (b, x) :: rest => if a = b then x else Memory.read rest a

/-- The cells that record that `a` holds `x`: none when an unlisted `a` reads as `x`. -/
def Memory.cell (a : Nat) (x : Byte) : Memory :=
  if x = Memory.resetByte a then [] else [(a, x)]

/-- `MEM[a] <- x`, keeping the canonical form. -/
def Memory.write (m : Memory) (a : Nat) (x : Byte) : Memory :=
  match m with
  | [] => Memory.cell a x
  | (b, y) :: rest =>
    if a < b then Memory.cell a x ++ (b, y) :: rest
    else if a = b then Memory.cell a x ++ rest
    else (b, y) :: Memory.write rest a x

/-- `MEM[a + j] <- bytes[j]`, lowest address first (R64). -/
def Memory.writeBytes (m : Memory) (a : Nat) (bytes : List Byte) : Memory :=
  match bytes with
  | [] => m
  | x :: rest => Memory.writeBytes (Memory.write m a x) (a + 1) rest

/-- `[MEM[a], ..., MEM[a + n - 1]]` (R63). -/
def Memory.readBytes (m : Memory) (a n : Nat) : List Byte :=
  (List.range n).map fun j => Memory.read m (a + j)

/-- The canonical form: addresses strictly rising and inside memory, no cell that repeats what an unlisted
address reads as. Equal memories are then equal lists. -/
abbrev Memory.wf (m : Memory) : Prop :=
  m.Pairwise (fun c d => c.1 < d.1) ∧ ∀ c ∈ m, c.1 < Config.memSize ∧ c.2 ≠ Memory.resetByte c.1

end Sys2Proof.Machine
end

