-- ==== Sys2Proof/Machine/Ops.lean ====
section
/-! DEFINITION. The named operations over registers, stack, memory and framebuffer that the meanings share, and
`raise`, the one way an instruction ends in an error (spec/00_scope.md R12, R13). -/

namespace Sys2Proof.Machine

/-- What a cycle or an instruction answers. -/
abbrev Result := Host.Outcome State Fault Refusal

/-- R13, R236, R241: `raise E` ends the cycle and discards every write. This is all there is of taking an
exception on this machine: no vector, no saved register, no mode; and so there is no return from one (R242). -/
def raise (e : Fault) : Result := .fault e

/-- `V[x]` (R21). -/
def State.reg (s : State) (x : RegIx) : Byte := s.v.get x

/-- `V[x] <- b` (R21). No register is hardwired. -/
def State.setReg (s : State) (x : RegIx) (b : Byte) : State := { s with v := s.v.set x.val b x.isLt }

/-- The number of VF (R11, R22). -/
def vf : RegIx := 15

/-- `VF <- b` (R22). -/
def State.setFlag (s : State) (b : Byte) : State := s.setReg vf b

/-- `PC <- a` (R13), unchecked (R23). -/
def State.setPc (s : State) (a : Word) : State := { s with pc := a }

/-- `I <- a`, unchecked (R24). -/
def State.setI (s : State) (a : Word) : State := { s with i := a }

/-- `DT <- b` (R27). -/
def State.setDt (s : State) (b : Byte) : State := { s with dt := b }

/-- `ST <- b` (R28). -/
def State.setSt (s : State) (b : Byte) : State := { s with st := b }

/-- Every register at once. -/
def State.setRegs (s : State) (v : Vector Byte 16) : State := { s with v := v }

/-- The whole memory at once. -/
def State.setMem (s : State) (m : Memory) : State := { s with mem := m }

/-- The framebuffer and `CHG <- 1` (R33): every writer of pixels marks the change. -/
def State.setScreen (s : State) (fb : FrameBuffer) : State := { s with fb := fb, chg := true }

/-- `KEY[k] <- pressed` (R246). -/
def State.setKeyBit (s : State) (k : KeyIx) (pressed : Bool) : State :=
  { s with key := s.key.set k.val pressed k.isLt }

/-- `CHG <- 0` (R248). -/
def State.clearChanged (s : State) : State := { s with chg := false }

/-- `WAITX <- x; WAITV <- 1` (R34, R212). -/
def State.beginWait (s : State) (x : RegIx) : State := { s with waitX := x, waitV := true }

/-- `WAITV <- 0` (R122). -/
def State.endWait (s : State) : State := { s with waitV := false }

/-- One byte of memory. -/
def State.byteAt (s : State) (a : Nat) : Byte := s.mem.read a

/-- R63, R64: an access of n bytes at a is in bounds; an access of no byte is never out of bounds. -/
abbrev inBounds (a n : Nat) : Prop := 1 ≤ n → a + n - 1 ≤ Config.maxAddr

/-- `MemRead(a, n)` (R12, R63). -/
def memRead (s : State) (a n : Nat) : Except Fault (List Byte) :=
  if inBounds a n then .ok (s.mem.readBytes a n) else .error .memoryOverflow

/-- `MemWrite(a, n, bytes)` (R12, R64): the whole range is checked before any byte is written. -/
def memWrite (s : State) (a : Nat) (bytes : List Byte) : Except Fault State :=
  if inBounds a bytes.length then .ok (s.setMem (s.mem.writeBytes a bytes)) else .error .memoryOverflow

/-- R142: `STACK[SP] <- a; SP <- SP + 1`, or StackOverflow when SP = 16. -/
def pushStack (s : State) (a : Word) : Except Fault State :=
  if h : s.sp.val < 16 then
    .ok { s with stack := s.stack.set s.sp.val a h, sp := ⟨s.sp.val + 1, Nat.succ_lt_succ h⟩ }
  else .error .stackOverflow

/-- R140: `STACK[SP - 1]` and `SP <- SP - 1`, or StackUnderflow when SP = 0. The entry keeps its value (R25). -/
def popStack (s : State) : Except Fault (Word × State) :=
  if s.sp.val = 0 then .error .stackUnderflow
  else
    have hp : s.sp.val - 1 < 16 := by omega
    .ok (s.stack[s.sp.val - 1], { s with sp := ⟨s.sp.val - 1, by omega⟩ })

/-- R40, R171, log 1: the byte presented on `rand_in`, and the state that has drawn it. -/
def drawRandom (s : State) : Byte × State :=
  (Config.randIn s.draws, { s with draws := s.draws + 1 })

/-- `FB[r][c]` (R32). -/
def FrameBuffer.pixel (fb : FrameBuffer) (r : Fin 32) (c : Fin 64) : Bool := (fb.get r).get c

/-- `FB[r][c] <- b`. -/
def FrameBuffer.setPixel (fb : FrameBuffer) (r : Fin 32) (c : Fin 64) (b : Bool) : FrameBuffer :=
  fb.set r.val ((fb.get r).set c.val b c.isLt) r.isLt

/-- The framebuffer with every pixel off (R201). -/
def FrameBuffer.clear : FrameBuffer := Vector.replicate 32 (Vector.replicate 64 false)

/-- One step of the scan of R202: sprite row j, column offset c; `acc` is the framebuffer so far and `hit`. -/
def drawPixel (rows : List Byte) (x y : Nat) (acc : FrameBuffer × Bool) (j c : Nat) : FrameBuffer × Bool :=
  if (rows.getD j 0).getLsbD (7 - c) then
    let r := Fin.ofNat 32 (y + j)
    let q := Fin.ofNat 64 (x + c)
    (acc.1.setPixel r q (acc.1.pixel r q ^^ true), acc.2 || acc.1.pixel r q)
  else acc

/-- The scan of R202 at column x and row y: the new framebuffer and `hit`. -/
def drawSprite (rows : List Byte) (x y : Nat) (fb : FrameBuffer) : FrameBuffer × Bool :=
  (List.range rows.length).foldl
    (fun acc j => (List.range 8).foldl (fun acc c => drawPixel rows x y acc j c) acc) (fb, false)

end Sys2Proof.Machine
end

