-- ==== Sys2Proof/Machine/Operands.lean ====
section
/-! DEFINITION. The operand forms: what an instruction computes from its fields and the state before it acts
(spec/30_encoding.md R93, spec/45_keypad_timers.md R216, spec/43_index_memory.md). -/

namespace Sys2Proof.Machine

/-- R93: NNN as an address, zero-extended to 16 bits. -/
def addrOf (nnn : Lit12) : Word := nnn.setWidth 16

/-- R147: `zext_16(NNN) + zext_16(b)`, not truncated to 12 bits. -/
def addrPlus (nnn : Lit12) (b : Byte) : Word := addrOf nnn + b.setWidth 16

/-- `npc`, the address of the instruction after this one: what PC holds during dispatch (R11, R124). -/
def npc (s : State) : Word := s.pc

/-- R143: `if c: PC <- npc + 2`. -/
def skipIf (c : Bool) (s : State) : State := if c then s.setPc (npc s + 2) else s

/-- R216: the key that V[X] names is the one its low nibble numbers (`KEY_INDEX_MODE = low_nibble`; log 12). -/
def keyNamed (b : Byte) : KeyIx := (b.extractLsb' 0 4).toFin

/-- R210, R211: `KEY[k]` for the key that V[X] names. -/
def keyDown (s : State) (x : RegIx) : Bool := s.key.get (keyNamed (s.reg x))

/-- R182: the address of the glyph V[X], `V[X] * 5`. -/
def glyphAddr (b : Byte) : Word := BitVec.ofNat 16 (Config.fontBase + b.toNat * 5)

/-- R183: hundreds, tens and units, one byte each. -/
def decimalDigits (b : Byte) : List Byte :=
  [BitVec.ofNat 8 (b.toNat / 100), BitVec.ofNat 8 (b.toNat / 10 % 10), BitVec.ofNat 8 (b.toNat % 10)]

/-- R184: `[V[0], ..., V[X]]`. -/
def regsUpTo (s : State) (x : RegIx) : List Byte := s.v.toList.take (x.val + 1)

/-- R185: `V[j] <- b[j]` for each byte of the list; the other registers keep their values. -/
def loadRegs (s : State) (bytes : List Byte) : State :=
  s.setRegs (Vector.ofFn fun j => bytes.getD j.val (s.reg j))

/-- R184, R185: `I + X + 1`, in 16 bits, not truncated to 12. -/
def indexPast (s : State) (x : RegIx) : Word := s.i + BitVec.ofNat 16 (x.val + 1)

/-- R200, R202: the rows of the sprite come from `MEM[I]` up; the address is I as an unbounded number (R63). -/
def indexAddr (s : State) : Nat := s.i.toNat

end Sys2Proof.Machine
end

