-- ==== Sys2Proof/Machine/Alu.lean ====
section
/-! DEFINITION. Register load, ALU and random (spec/42_alu.md). Reads see the state the instruction starts from
(spec/40_cycle_and_fetch.md R125); the flag is written first and the result second, so with X = 0xF the result
stands (R126; log 8). -/

namespace Sys2Proof.Machine

/-- R126: `VF <- flag`, then `V[x] <- result`. -/
def writeFlagThenReg (s : State) (flag : Byte) (x : RegIx) (result : Byte) : State :=
  (s.setFlag flag).setReg x result

/-- 6XKK, R160. -/
def execLdKk (x : RegIx) (kk : Byte) (s : State) : Result := .next (s.setReg x kk)

/-- 7XKK, R161: no flag. -/
def execAddKk (x : RegIx) (kk : Byte) (s : State) : Result := .next (s.setReg x (s.reg x + kk))

/-- 8XY0, R162. -/
def execLdVy (x y : RegIx) (s : State) : Result := .next (s.setReg x (s.reg y))

/-- 8XY1, R163: VF is left alone. -/
def execOrVy (x y : RegIx) (s : State) : Result := .next (s.setReg x (s.reg x ||| s.reg y))

/-- 8XY2, R164: VF is left alone. -/
def execAndVy (x y : RegIx) (s : State) : Result := .next (s.setReg x (s.reg x &&& s.reg y))

/-- 8XY3, R165: VF is left alone. -/
def execXorVy (x y : RegIx) (s : State) : Result := .next (s.setReg x (s.reg x ^^^ s.reg y))

/-- 8XY4, R166. -/
def execAddVy (x y : RegIx) (s : State) : Result :=
  .next (writeFlagThenReg s (carryFlag (s.reg x) (s.reg y)) x (s.reg x + s.reg y))

/-- 8XY5, R167. -/
def execSub (x y : RegIx) (s : State) : Result :=
  .next (writeFlagThenReg s (noBorrowFlag (s.reg x) (s.reg y)) x (s.reg x - s.reg y))

/-- 8XY6, R168: the operand is V[X]; Y is ignored (R99). -/
def execShr (x _y : RegIx) (s : State) : Result :=
  .next (writeFlagThenReg s (shiftedOutRight (s.reg x)) x (s.reg x >>> 1))

/-- 8XY7, R169. -/
def execSubn (x y : RegIx) (s : State) : Result :=
  .next (writeFlagThenReg s (noBorrowFlag (s.reg y) (s.reg x)) x (s.reg y - s.reg x))

/-- 8XYE, R170: the operand is V[X]; Y is ignored (R99). -/
def execShl (x _y : RegIx) (s : State) : Result :=
  .next (writeFlagThenReg s (shiftedOutLeft (s.reg x)) x (s.reg x <<< 1))

/-- CXKK, R171: one fresh byte of `rand_in` is drawn (log 1). -/
def execRnd (x : RegIx) (kk : Byte) (s : State) : Result :=
  .next ((drawRandom s).2.setReg x ((drawRandom s).1 &&& kk))

end Sys2Proof.Machine
end

