-- ==== Sys2Proof/Machine/Display.lean ====
section
/-! DEFINITION. Clear screen and sprite draw (spec/44_display.md). -/

namespace Sys2Proof.Machine

/-- 00E0, R201. -/
def execCls (s : State) : Result := .next (s.setScreen FrameBuffer.clear)

/-- DXYN, R202: column from V[X], row from V[Y], both before VF is written (R125). -/
def execDrw (x y : RegIx) (n : Nibble) (s : State) : Result :=
  match memRead s (indexAddr s) n.toNat with
  | .ok rows =>
    let drawn := drawSprite rows (s.reg x).toNat (s.reg y).toNat s.fb
    .next ((s.setFlag (collisionFlag drawn.2)).setScreen drawn.1)
  | .error e => raise e

end Sys2Proof.Machine
end

