-- ==== Sys2Proof/Machine/Flow.lean ====
section
/-! DEFINITION. Control flow (spec/41_control_flow.md). PC already holds `npc` when a meaning runs
(spec/40_cycle_and_fetch.md R124). No target is range-checked here (spec/10_state.md R23). -/

namespace Sys2Proof.Machine

/-- 00EE, R140. -/
def execRet (s : State) : Result :=
  match popStack s with
  | .ok (a, t) => .next (t.setPc a)
  | .error e => raise e

/-- 1NNN, R141. -/
def execJp (nnn : Lit12) (s : State) : Result := .next (s.setPc (addrOf nnn))

/-- 2NNN, R142: the address pushed is `npc`. -/
def execCall (nnn : Lit12) (s : State) : Result :=
  match pushStack s (npc s) with
  | .ok t => .next (t.setPc (addrOf nnn))
  | .error e => raise e

/-- 3XKK, R143. -/
def execSeKk (x : RegIx) (kk : Byte) (s : State) : Result := .next (skipIf (decide (s.reg x = kk)) s)

/-- 4XKK, R144. -/
def execSneKk (x : RegIx) (kk : Byte) (s : State) : Result := .next (skipIf (decide (s.reg x ≠ kk)) s)

/-- 5XY0, R145. -/
def execSeVy (x y : RegIx) (s : State) : Result := .next (skipIf (decide (s.reg x = s.reg y)) s)

/-- 9XY0, R146. -/
def execSneVy (x y : RegIx) (s : State) : Result := .next (skipIf (decide (s.reg x ≠ s.reg y)) s)

/-- BNNN, R147: always V0, and no truncation to 12 bits. -/
def execJpV0 (nnn : Lit12) (s : State) : Result := .next (s.setPc (addrPlus nnn (s.reg 0)))

end Sys2Proof.Machine
end

