-- ==== Sys2Proof/Machine/Index.lean ====
section
/-! DEFINITION. Index register and memory transfer (spec/43_index_memory.md). A whole range is checked before any
effect (spec/20_memory.md R63, R64). -/

namespace Sys2Proof.Machine

/-- ANNN, R180. -/
def execLdI (nnn : Lit12) (s : State) : Result := .next (s.setI (addrOf nnn))

/-- FX1E, R181: the sum is of the whole 16-bit I and V[X], and I receives its low 12 bits. -/
def execAddIVx (x : RegIx) (s : State) : Result :=
  .next ((s.setFlag (indexOverflowFlag s.i (s.reg x))).setI (BitVec.ofNat 16 ((s.i.toNat + (s.reg x).toNat) % 4096)))

/-- FX29, R182: the whole of V[X] is multiplied. -/
def execLdFVx (x : RegIx) (s : State) : Result := .next (s.setI (glyphAddr (s.reg x)))

/-- FX33, R183. -/
def execLdBVx (x : RegIx) (s : State) : Result :=
  match memWrite s (indexAddr s) (decimalDigits (s.reg x)) with
  | .ok t => .next t
  | .error e => raise e

/-- FX55, R184. -/
def execStInd (x : RegIx) (s : State) : Result :=
  match memWrite s (indexAddr s) (regsUpTo s x) with
  | .ok t => .next (t.setI (indexPast s x))
  | .error e => raise e

/-- FX65, R185. -/
def execLdInd (x : RegIx) (s : State) : Result :=
  match memRead s (indexAddr s) (x.val + 1) with
  | .ok bytes => .next ((loadRegs s bytes).setI (indexPast s x))
  | .error e => raise e

end Sys2Proof.Machine
end

