-- ==== Sys2Proof/Machine/Keypad.lean ====
section
/-! DEFINITION. Keypad and timer instructions (spec/45_keypad_timers.md). The tick of the same cycle follows
(spec/40_cycle_and_fetch.md R127). -/

namespace Sys2Proof.Machine

/-- EX9E, R210. -/
def execSkp (x : RegIx) (s : State) : Result := .next (skipIf (keyDown s x) s)

/-- EXA1, R211. -/
def execSknp (x : RegIx) (s : State) : Result := .next (skipIf (!keyDown s x) s)

/-- FX07, R213: DT before this cycle's tick. -/
def execLdVxDt (x : RegIx) (s : State) : Result := .next (s.setReg x s.dt)

/-- FX0A, R212: the issuing cycle; the latch is not looked at. -/
def execLdVxK (x : RegIx) (s : State) : Result := .next (s.beginWait x)

/-- FX15, R214. -/
def execLdDtVx (x : RegIx) (s : State) : Result := .next (s.setDt (s.reg x))

/-- FX18, R215. -/
def execLdStVx (x : RegIx) (s : State) : Result := .next (s.setSt (s.reg x))

end Sys2Proof.Machine
end

