-- ==== Sys2Proof/Machine/Cycle.lean ====
section
/-! DEFINITION. The one step of the machine, the cycle (spec/40_cycle_and_fetch.md R120 to R129): key-wait branch,
fetch, decode, advance, execute, timer tick. -/

namespace Sys2Proof.Machine

/-- R123, R62: the word at PC and PC + 1, or MemoryOverflow when PC > 0xFFE. -/
def fetchWord (s : State) : Except Fault Word :=
  if inBounds s.pc.toNat 2 then .ok (wordOfBytes (s.byteAt s.pc.toNat) (s.byteAt (s.pc.toNat + 1)))
  else .error .memoryOverflow

/-- R121 lines 2 and 3: the instruction at PC; fetch errors come before DecodeError (R239). -/
def fetchInstr (s : State) : Except Fault Instr :=
  match fetchWord s with
  | .error e => .error e
  | .ok w =>
    match decode w with
    | .ok i => .ok i
    | .error _ => .error .decodeError

/-- R124: `PC <- npc = ipc + 2`, before the instruction's own assignments. -/
def advancePc (s : State) : State := s.setPc (s.pc + 2)

/-- R127: one timer's tick, never below zero. -/
def tickTimer (b : Byte) : Byte := if b = 0 then 0 else b - 1

/-- R127: TimerTick. -/
def timerTick (s : State) : State := (s.setDt (tickTimer s.dt)).setSt (tickTimer s.st)

/-- R122: the lowest-numbered pressed key, if any (`WAIT_KEY_CHOICE = lowest_index`; log 13). -/
def lowestPressed (s : State) : Option KeyIx := (List.finRange 16).find? fun k => s.key.get k

/-- R122: the key-wait branch before its tick. -/
def waitBranch (s : State) : State :=
  match lowestPressed s with
  | some k => (s.setReg s.waitX (BitVec.ofNat 8 k.val)).endWait
  | none => s

/-- R121 lines 5 and 6: a cycle that raised nothing ticks the timers; one that raised changes nothing (R129). -/
def finish (o : Result) : Result :=
  match o with
  | .next t => .next (timerTick t)
  | .fault e => raise e
  | .refused r => .refused r

/-- R121: the cycle. -/
def cycle (s : State) : Result :=
  if s.waitV then .next (timerTick (waitBranch s))
  else
    match fetchInstr s with
    | .error e => raise e
    | .ok i => finish (exec i (advancePc s))

/-- Where the next fetch can take place: PC, or the load address when PC names no two bytes of memory (log 22). -/
def fetchSlot (s : State) : Nat := if inBounds s.pc.toNat 2 then s.pc.toNat else Config.progBase

/-- The state whose next cycle fetches `w`: `w` in memory at PC as memory holds words (R62), no key wait (R122). -/
def withNextWord (s : State) (w : Word) : State :=
  ((s.setMem (s.mem.writeBytes (fetchSlot s) [highByte w, lowByte w])).setPc (BitVec.ofNat 16 (fetchSlot s))).endWait

end Sys2Proof.Machine
end

