-- ==== Sys2Proof/Machine/Step.lean ====
section
/-! DEFINITION. The step of the machine is the cycle of Machine/Cycle.lean. -/

namespace Sys2Proof.Machine

/-- R120: one step is one cycle. -/
def step (s : State) : Host.Outcome State Fault Refusal := cycle s

/-- `s` with the instruction whose table bits are `w` stored where the next step fetches (log 22). -/
def State.withFetchWord (s : State) (nbits w : Nat) : State := withNextWord s (tableWord nbits w)

end Sys2Proof.Machine
end

