-- ==== Sys2Proof/Machine/HostOps.lean ====
section
/-! DEFINITION. What the host sees and does (spec/60_exceptions.md R237, R244 to R252): the result of a cycle with its
code, and the six host operations, which act between cycles. -/

namespace Sys2Proof.Machine

/-- R41, R128: the outcome of a cycle that raised nothing. -/
inductive CycleOutcome where
  | continued
  | awaitingKeyInput
  deriving DecidableEq, Repr

/-- R41: what a cycle returns. -/
inductive CycleResult where
  /-- `Ok(outcome)` -/
  | ok (o : CycleOutcome)
  /-- `Err(e)` -/
  | err (e : Fault)
  /-- No meaning for the instruction; no cycle of this model returns it. -/
  | refused (r : Refusal)
  deriving DecidableEq, Repr

/-- R128: the outcome is AwaitingKeyInput exactly when WAITV = 1 after the cycle. -/
def outcomeAfter (t : State) : CycleOutcome := if t.waitV then .awaitingKeyInput else .continued

/-- R237: the codes of the outcomes. -/
def outcomeCode (o : CycleOutcome) : Nat :=
  match o with
  | .continued => 0
  | .awaitingKeyInput => 1

/-- R237: the codes of the errors. -/
def faultCode (e : Fault) : Nat :=
  match e with
  | .memoryOverflow => 1
  | .stackOverflow => 2
  | .stackUnderflow => 3
  | .decodeError => 4
  | .romTooLarge => 5

/-- `execute_cycle()` (R41, R120): the state after the cycle and what it returns. After an error the state is the
one before the cycle (R129, R236; log 4), so the host may act on it and a further cycle repeats the error (R242). -/
def executeCycle (s : State) : State × CycleResult :=
  match step s with
  | .next t => (t, .ok (outcomeAfter t))
  | .fault e => (s, .err e)
  | .refused r => (s, .refused r)

/-- `reset` (R244, R260). The count of draws is kept: it is the model's own, and a reset makes no generator repeat
its bytes (log 2). -/
def hostReset (s : State) : State := { State.reset with draws := s.draws }

/-- `load_program(bytes)` (R245). -/
def loadProgram (bytes : List Byte) (s : State) : Result :=
  if bytes.length > Config.romMax then raise .romTooLarge
  else .next (s.setMem (s.mem.writeBytes Config.progBase bytes))

/-- `set_key(index, pressed)` (R246). -/
def setKey (k : KeyIx) (pressed : Bool) (s : State) : State := s.setKeyBit k pressed

/-- `pixel_at(row, col)` (R247). -/
def pixelAt (row : Fin 32) (col : Fin 64) (s : State) : Bool := s.fb.pixel row col

/-- `take_changed_flag()` (R248): the flag, and the state with the flag cleared. -/
def takeChangedFlag (s : State) : Bool × State := (s.chg, s.clearChanged)

/-- `sound_timer()` (R249). -/
def soundTimer (s : State) : Byte := s.st

/-- The moves the host has between two cycles (R250, R252). -/
inductive HostMove where
  | reset
  | loadProgram (bytes : List Byte)
  | setKey (k : KeyIx) (pressed : Bool)
  | pixelAt (row : Fin 32) (col : Fin 64)
  | takeChangedFlag
  | soundTimer
  deriving DecidableEq, Repr

/-- The state after a host move; a load that returns RomTooLarge changes nothing (R236, R245). -/
def hostMove (m : HostMove) (s : State) : State :=
  match m with
  | .reset => hostReset s
  | .loadProgram bytes =>
    match loadProgram bytes s with
    | .next t => t
    | _ => s
  | .setKey k pressed => setKey k pressed s
  | .pixelAt _ _ => s
  | .takeChangedFlag => (takeChangedFlag s).2
  | .soundTimer => s

end Sys2Proof.Machine
end

