-- ==== Sys2Proof/Safety.lean ====
section
/-! DEFINITION. The vocabulary of the statements: what an instruction leaves alone, which instruction may write what
(spec/10_state.md R37), the invariant (R46), reachable states (spec/70_reset_and_hazards.md R261). -/

namespace Sys2Proof.Machine

/-- The parts of the state, for frames. -/
inductive Part where
  | regs | index | pc | stack | memory | delay | sound | keys | pixels | changed | wait | draws
  deriving DecidableEq, Repr

/-- A part reads the same in `t` as in `s`. -/
def Part.same (p : Part) (s t : State) : Prop :=
  match p with
  | .regs => ∀ r, t.reg r = s.reg r
  | .index => t.i = s.i
  | .pc => t.pc = s.pc
  | .stack => (∀ k, t.stack.get k = s.stack.get k) ∧ t.sp = s.sp
  | .memory => ∀ a, t.byteAt a = s.byteAt a
  | .delay => t.dt = s.dt
  | .sound => t.st = s.st
  | .keys => ∀ k, t.key.get k = s.key.get k
  | .pixels => ∀ r c, t.fb.pixel r c = s.fb.pixel r c
  | .changed => t.chg = s.chg
  | .wait => t.waitV = s.waitV ∧ t.waitX = s.waitX
  | .draws => t.draws = s.draws

/-- Every part but the named ones reads the same. -/
def SameExcept (ps : List Part) (s t : State) : Prop := ∀ p : Part, p ∉ ps → p.same s t

/-- Every register but the named ones reads the same. -/
def RegsSameExcept (xs : List RegIx) (s t : State) : Prop := ∀ r, r ∉ xs → t.reg r = s.reg r

/-- Every byte of memory outside the n bytes at a reads the same. -/
def BytesSameOutside (a n : Nat) (s t : State) : Prop := ∀ b, b < a ∨ a + n ≤ b → t.byteAt b = s.byteAt b

/-- Every word with `(w AND mask) = val` decodes to the instruction `build w` (R95). -/
def WordsOf (mask val : Word) (build : Word → Instr) : Prop := ∀ w, w &&& mask = val → decode w = .ok (build w)

/-- The cycle that begins in `s` executes `i`: no key wait, and the word at PC decodes to `i` (R121). -/
def Runs (s : State) (i : Instr) : Prop := s.waitV = false ∧ fetchInstr s = .ok i

/-- R37, R21, R22: the registers an instruction may write, VF as a flag included. -/
def mayWriteReg (i : Instr) (r : RegIx) : Prop :=
  match i with
  | .ldKk x _ | .addKk x _ | .ldVy x _ | .orVy x _ | .andVy x _ | .xorVy x _ | .rnd x _ | .ldVxDt x => r = x
  | .addVy x _ | .sub x _ | .shr x _ | .subn x _ | .shl x _ => r = x ∨ r = 15
  | .drw _ _ _ | .addIVx _ => r = 15
  | .ldInd x => r ≤ x
  | .cls | .ret | .jp _ | .call _ | .seKk _ _ | .sneKk _ _ | .seVy _ _ | .sneVy _ _ | .ldI _ | .jpV0 _ | .skp _
  | .sknp _ | .ldVxK _ | .ldDtVx _ | .ldStVx _ | .ldFVx _ | .ldBVx _ | .stInd _ => False

/-- R66: the first address an instruction stores to and how many bytes, for the two that store. -/
def storeRange (i : Instr) (s : State) : Option (Nat × Nat) :=
  match i with
  | .ldBVx _ => some (s.i.toNat, 3)
  | .stInd x => some (s.i.toNat, x.val + 1)
  | .cls | .ret | .jp _ | .call _ | .seKk _ _ | .sneKk _ _ | .seVy _ _ | .ldKk _ _ | .addKk _ _ | .ldVy _ _
  | .orVy _ _ | .andVy _ _ | .xorVy _ _ | .addVy _ _ | .sub _ _ | .shr _ _ | .subn _ _ | .shl _ _ | .sneVy _ _
  | .ldI _ | .jpV0 _ | .rnd _ _ | .drw _ _ _ | .skp _ | .sknp _ | .ldVxDt _ | .ldVxK _ | .ldDtVx _ | .ldStVx _
  | .addIVx _ | .ldFVx _ | .ldInd _ => none

/-- R46: what holds in every reachable state; the memory's canonical form is the model's own clause. -/
structure Inv (s : State) : Prop where
  memWf : s.mem.wf
  pcLe : s.pc.toNat ≤ 0x10FE
  indexLe : s.i.toNat ≤ 0x1000
  liveEntries : ∀ k : Fin 16, k.val < s.sp.val → 2 ≤ (s.stack.get k).toNat ∧ (s.stack.get k).toNat ≤ 0x1000

/-- R261, R250: the states reached from reset by cycles and host operations, in any order. A cycle that ends in an
error leaves the state it began in (R236). -/
inductive Reachable : State → Prop where
  | reset : Reachable State.reset
  | cycle {s : State} : Reachable s → Reachable (executeCycle s).1
  | host {s : State} (m : HostMove) : Reachable s → Reachable (hostMove m s)

/-- R46, last clause: the key wait of `s` began in the cycle that started in `b` and has lasted since. -/
inductive WaitBeganIn (b : State) : State → Prop where
  | issue {s : State} : b.waitV = false → step b = .next s → s.waitV = true → WaitBeganIn b s
  | cycle {s : State} : WaitBeganIn b s → (executeCycle s).1.waitV = true → WaitBeganIn b (executeCycle s).1
  | host {s : State} (m : HostMove) : WaitBeganIn b s → (hostMove m s).waitV = true → WaitBeganIn b (hostMove m s)

end Sys2Proof.Machine
end

