-- ==== Sys2Proof/Certificates/Slice0/Obligations.lean ====
section
/-! DEFINITION. The statements for the provers. In a statement about `exec i s`, `s` is the state during dispatch:
`s.pc` is `npc`, the address of the instruction after this one (spec/40_cycle_and_fetch.md R124), and the timer tick
(R127) has not happened yet; `StepRunsTheInstructionAtPc` ties that to a step. "PC unchanged" therefore says that the
instruction ends at `npc`. A fault leaves the state as it was (`ErrorsLeaveTheStateAndRepeat`). "The spec's decision
D<n>" is a row of spec/92_eei_decisions.md: a choice the spec marks as its own. -/

open Sys2Proof Sys2Proof.Machine

/-! ### Encoding (spec/30_encoding.md) -/

/-- R91: the fields are the stated bits of the word, read as unsigned numbers. -/
def Obligations.FieldsAreTheStatedBits : Prop :=
  ∀ w : Word, (fieldX w).val = w.toNat / 256 % 16 ∧ (fieldY w).val = w.toNat / 16 % 16 ∧
    (fieldN w).toNat = w.toNat % 16 ∧ (fieldKK w).toNat = w.toNat % 256 ∧ (fieldNNN w).toNat = w.toNat % 4096

/-- R91, R95, R104: decoding an assembled instruction gives it back, every operand at every value, as a word and as
the head of a byte sequence. -/
def Obligations.DecodeUndoesEncode : Prop :=
  ∀ i : Instr, decode (encode i) = .ok i ∧ ∀ rest, decodeBytes (encodeBytes i ++ rest) = .ok (i, rest)

/-- R95, R104: a word that decodes is the word its instruction assembles to, so no bit of it is dropped. -/
def Obligations.EncodeUndoesDecode : Prop :=
  ∀ (w : Word) (i : Instr), decode w = .ok i → encode i = w

/-- R97: no word matches two of the 34 rows, and the order in which a decoder tries the rows is irrelevant. -/
def Obligations.OpcodeRowsAreDisjoint : Prop :=
  opcodeRows.length = 34 ∧
  (∀ (w : Word) (j k : Fin opcodeRows.length), opcodeRows[j].matchesWord w = true → opcodeRows[k].matchesWord w = true →
    j = k) ∧
  ∀ (w : Word) (rows : List Row), rows.Perm opcodeRows → decodeWith rows w = decode w

/-- R98, its table of illegal words (not its counts): a word has no instruction exactly when it stands in one of the
six families' illegal sets. -/
def Obligations.IllegalWordsAreThoseOfTheTable : Prop :=
  ∀ w : Word, decode w = .error .illegal ↔
    (w.toNat / 4096 = 0 ∧ w.toNat ≠ 0x00E0 ∧ w.toNat ≠ 0x00EE) ∨
    ((w.toNat / 4096 = 5 ∨ w.toNat / 4096 = 9) ∧ w.toNat % 16 ≠ 0) ∨
    (w.toNat / 4096 = 8 ∧ w.toNat % 16 ∈ [8, 9, 10, 11, 12, 13, 15]) ∨
    (w.toNat / 4096 = 14 ∧ w.toNat % 256 ∉ [0x9E, 0xA1]) ∨
    (w.toNat / 4096 = 15 ∧ w.toNat % 256 ∉ [0x07, 0x0A, 0x15, 0x18, 0x1E, 0x29, 0x33, 0x55, 0x65])

/-- Words written out in spec/95_test_vectors.md, section 2.1 (E1 to E18), decode as they do there. -/
def Obligations.WrittenOutWordsDecode : Prop :=
  decode 0x00E0 = .ok .cls ∧ decode 0x00EE = .ok .ret ∧ decode 0x1ABC = .ok (.jp 0xABC) ∧
  decode 0x3A42 = .ok (.seKk 0xA 0x42) ∧ decode 0x8374 = .ok (.addVy 3 7) ∧ decode 0xD125 = .ok (.drw 1 2 5) ∧
  decode 0xE19E = .ok (.skp 1) ∧ decode 0xF755 = .ok (.stInd 7) ∧ decode 0x6012 = .ok (.ldKk 0 0x12) ∧
  decode 0x86A6 = .ok (.shr 6 0xA) ∧ decode 0x5121 = .error .illegal ∧ decode 0x0000 = .error .illegal ∧
  decode 0x8128 = .error .illegal ∧ decode 0xFFFF = .error .illegal

/-! ### The cycle (spec/40_cycle_and_fetch.md) -/

/-- R121, R124, R127: with no key wait, a step at a PC whose word decodes to `i` is `exec i` with PC moved past the
word, and each timer ticked once, floored at 0, if that answers a next state; an error of `exec` is the step's. -/
def Obligations.StepRunsTheInstructionAtPc : Prop :=
  ∀ (s : State) (i : Instr), s.waitV = false → s.pc.toNat ≤ 0xFFE →
    decode (wordOfBytes (s.byteAt s.pc.toNat) (s.byteAt (s.pc.toNat + 1))) = .ok i →
    step s =
      match exec i { s with pc := s.pc + 2 } with
      | .next t => .next { t with dt := if t.dt = 0 then 0 else t.dt - 1, st := if t.st = 0 then 0 else t.st - 1 }
      | .fault e => .fault e
      | .refused r => .refused r

/-- R62, R123: the word fetched has the byte at PC as its high byte; for PC from 0xFFF up the cycle is a
MemoryOverflow. -/
def Obligations.FetchReadsTwoBytesBigEndian : Prop :=
  ∀ s : State,
    (s.pc.toNat ≤ 0xFFE → ∃ w, fetchWord s = .ok w ∧
      w.toNat = (s.byteAt s.pc.toNat).toNat * 256 + (s.byteAt (s.pc.toNat + 1)).toNat) ∧
    (0xFFE < s.pc.toNat → s.waitV = false → step s = .fault .memoryOverflow)

/-- R122, R127: a cycle that begins in the key wait with no key pressed changes nothing but the timers, whatever PC
holds. Rests on the spec's decision D15 (the timers tick). -/
def Obligations.WaitWithoutKeyOnlyTicks : Prop :=
  ∀ s : State, s.waitV = true → (∀ k, s.key.get k = false) →
    ∃ t, step s = .next t ∧ t.dt.toNat = s.dt.toNat - 1 ∧ t.st.toNat = s.st.toNat - 1 ∧
      SameExcept [.delay, .sound] s t

/-- R122, R127: a cycle that begins in the key wait with a key pressed writes the lowest pressed key's number to
V[WAITX], clears WAITV, ticks, and fetches nothing. Rests on the spec's decisions D13 to D15. -/
def Obligations.WaitTakesTheLowestPressedKey : Prop :=
  ∀ (s : State) (k : KeyIx), s.waitV = true → s.key.get k = true → (∀ j, j < k → s.key.get j = false) →
    ∃ t, step s = .next t ∧ (t.reg s.waitX).toNat = k.val ∧ RegsSameExcept [s.waitX] s t ∧
      t.waitV = false ∧ t.waitX = s.waitX ∧ t.dt.toNat = s.dt.toNat - 1 ∧ t.st.toNat = s.st.toNat - 1 ∧
      SameExcept [.regs, .wait, .delay, .sound] s t

/-- R127: every cycle that answers a next state ticks each timer once, floored at 0, from the value the instruction
left: V[X] after FX15 (for DT) and FX18 (for ST), the old value after everything else, the key wait included (the
spec's decision D15). -/
def Obligations.TimersTickOncePerCycle : Prop :=
  ∀ s t : State, step s = .next t →
    (∀ x, Runs s (.ldDtVx x) → t.dt.toNat = (s.reg x).toNat - 1) ∧
    ((¬ ∃ x, Runs s (.ldDtVx x)) → t.dt.toNat = s.dt.toNat - 1) ∧
    (∀ x, Runs s (.ldStVx x) → t.st.toNat = (s.reg x).toNat - 1) ∧
    ((¬ ∃ x, Runs s (.ldStVx x)) → t.st.toNat = s.st.toNat - 1)

/-- R128: a cycle returns Ok(AwaitingKeyInput) exactly when it executed FX0A, or began in the key wait and found no
key. Rests on the spec's decision D13 for the cycle that finds a key. -/
def Obligations.AwaitingOutcomeExactlyWhenWaiting : Prop :=
  ∀ s : State, (executeCycle s).2 = .ok .awaitingKeyInput ↔
    (∃ x, Runs s (.ldVxK x)) ∨ (s.waitV = true ∧ ∀ k, s.key.get k = false)

/-- R131: a cycle that executes no CXKK does not depend on the number of draws, the model's own field; its result is a
function of the core's state alone. -/
def Obligations.OnlyRandomReadsTheDraws : Prop :=
  ∀ (s : State) (n : Nat), (¬ ∃ x kk, Runs s (.rnd x kk)) →
    step { s with draws := n } =
      match step s with
      | .next t => .next { t with draws := n }
      | .fault e => .fault e
      | .refused r => .refused r

/-! ### Errors (spec/60_exceptions.md) -/

/-- R234: DecodeError is raised only by, and by every, cycle whose fetched word is illegal. -/
def Obligations.DecodeErrorExactlyOnIllegalWords : Prop :=
  ∀ s : State, step s = .fault .decodeError ↔
    s.waitV = false ∧ ∃ w, fetchWord s = .ok w ∧ decode w = .error .illegal

/-- R231: MemoryOverflow is raised by exactly the conditions of the table. -/
def Obligations.MemoryOverflowExactlyByTheTable : Prop :=
  ∀ s : State, step s = .fault .memoryOverflow ↔
    (s.waitV = false ∧ 0xFFE < s.pc.toNat) ∨
    (∃ x y n, Runs s (.drw x y n) ∧ 1 ≤ n.toNat ∧ 0xFFF < s.i.toNat + n.toNat - 1) ∨
    (∃ x, Runs s (.ldBVx x) ∧ 0xFFF < s.i.toNat + 2) ∨
    (∃ x, Runs s (.stInd x) ∧ 0xFFF < s.i.toNat + x.val) ∨
    (∃ x, Runs s (.ldInd x) ∧ 0xFFF < s.i.toNat + x.val)

/-- R232, R233: StackOverflow is raised only by 2NNN when SP = 16, StackUnderflow only by 00EE when SP = 0. -/
def Obligations.StackErrorsExactlyAtTheEnds : Prop :=
  ∀ s : State,
    (step s = .fault .stackOverflow ↔ (∃ nnn, Runs s (.call nnn)) ∧ s.sp.val = 16) ∧
    (step s = .fault .stackUnderflow ↔ Runs s .ret ∧ s.sp.val = 0)

/-- R235: RomTooLarge is raised only by load_program, when the sequence is longer than 3584 bytes, and by no cycle. -/
def Obligations.RomTooLargeOnlyFromLoad : Prop :=
  (∀ s : State, step s ≠ .fault .romTooLarge) ∧
  ∀ (bytes : List Byte) (s : State), loadProgram bytes s = .fault .romTooLarge ↔ 3584 < bytes.length

/-- R120: the cycle is total: it answers a next state or one of the four errors; no instruction is refused. -/
def Obligations.NoStepIsRefused : Prop :=
  ∀ (s : State) (r : Refusal), step s ≠ .refused r

/-- R129, R236, R242: a cycle that ends in an error leaves the state as it was, and a further cycle repeats the error.
Rests on the spec's decisions D4 and D5. -/
def Obligations.ErrorsLeaveTheStateAndRepeat : Prop :=
  ∀ (s : State) (e : Fault), step s = .fault e →
    executeCycle s = (s, .err e) ∧ executeCycle (executeCycle s).1 = (s, .err e)

/-! ### Who may write what (spec/10_state.md R37) -/

/-- R21, R22, R37: a cycle writes a register only if it executes an instruction that may write it, or it is V[WAITX]
in the key wait. -/
def Obligations.RegistersChangeOnlyByTheirWriters : Prop :=
  ∀ (s t : State) (r : RegIx), step s = .next t → t.reg r ≠ s.reg r →
    (∃ i, Runs s i ∧ mayWriteReg i r) ∨ (s.waitV = true ∧ r = s.waitX)

/-- R37, R66: a cycle changes a byte of memory only if it executes an instruction that stores, and the byte is among
those it stores. The premise is the memory's canonical form, which `StepKeepsTheInvariant` maintains. -/
def Obligations.MemoryChangesOnlyByStores : Prop :=
  ∀ (s t : State) (b : Nat), s.mem.wf → step s = .next t → t.byteAt b ≠ s.byteAt b →
    ∃ i a n, Runs s i ∧ storeRange i s = some (a, n) ∧ a ≤ b ∧ b < a + n

/-- R37: what a cycle may do to I, the stack and PC. PC moves by 2 unless the instruction is one of those that assign
it, and not at all in the key wait. -/
def Obligations.ControlStateChangesOnlyByItsWriters : Prop :=
  ∀ s t : State, step s = .next t →
    (t.i ≠ s.i → ∃ x nnn, Runs s (.ldI nnn) ∨ Runs s (.addIVx x) ∨ Runs s (.ldFVx x) ∨ Runs s (.stInd x) ∨
      Runs s (.ldInd x)) ∧
    (t.stack ≠ s.stack → ∃ nnn, Runs s (.call nnn)) ∧
    (t.sp ≠ s.sp → Runs s .ret ∨ ∃ nnn, Runs s (.call nnn)) ∧
    (s.waitV = true → t.pc = s.pc) ∧
    (s.waitV = false → t.pc ≠ s.pc + 2 → ∃ x y kk nnn, Runs s .ret ∨ Runs s (.jp nnn) ∨ Runs s (.call nnn) ∨
      Runs s (.jpV0 nnn) ∨ Runs s (.seKk x kk) ∨ Runs s (.sneKk x kk) ∨ Runs s (.seVy x y) ∨ Runs s (.sneVy x y) ∨
      Runs s (.skp x) ∨ Runs s (.sknp x))

/-- R37, R31 to R34: what a cycle may do to the keys, the framebuffer, the changed flag and the wait marker, and the
model's own count of draws (log 1): one more exactly when CXKK is executed. -/
def Obligations.DeviceStateChangesOnlyByItsWriters : Prop :=
  ∀ s t : State, step s = .next t →
    t.key = s.key ∧
    (t.fb ≠ s.fb → Runs s .cls ∨ ∃ x y n, Runs s (.drw x y n)) ∧
    (t.chg ≠ s.chg → (Runs s .cls ∨ ∃ x y n, Runs s (.drw x y n)) ∧ t.chg = true) ∧
    (t.waitX ≠ s.waitX → Runs s (.ldVxK t.waitX)) ∧
    (t.waitV = true → s.waitV = false → Runs s (.ldVxK t.waitX)) ∧
    (t.waitV = false → s.waitV = true → ∃ k, s.key.get k = true) ∧
    ((∃ x kk, Runs s (.rnd x kk)) → t.draws = s.draws + 1) ∧
    ((¬ ∃ x kk, Runs s (.rnd x kk)) → t.draws = s.draws)

/-! ### Control flow (spec/41_control_flow.md) -/

/-- R141: 1NNN. -/
def Obligations.JumpLoadsPc : Prop :=
  WordsOf 0xF000 0x1000 (fun w => .jp (fieldNNN w)) ∧
  ∀ (nnn : Lit12) (s : State), ∃ t, exec (.jp nnn) s = .next t ∧ t.pc.toNat = nnn.toNat ∧ SameExcept [.pc] s t

/-- R142: 2NNN pushes `npc` and jumps; with SP = 16 it is a StackOverflow. That SP counts the occupied entries is the
spec's decision D7. -/
def Obligations.CallPushesAndJumps : Prop :=
  WordsOf 0xF000 0x2000 (fun w => .call (fieldNNN w)) ∧
  ∀ (nnn : Lit12) (s : State),
    (s.sp.val < 16 → ∃ t, exec (.call nnn) s = .next t ∧ t.sp.val = s.sp.val + 1 ∧ t.pc.toNat = nnn.toNat ∧
      (∀ k : Fin 16, k.val = s.sp.val → t.stack.get k = s.pc) ∧
      (∀ k : Fin 16, k.val ≠ s.sp.val → t.stack.get k = s.stack.get k) ∧ SameExcept [.pc, .stack] s t) ∧
    (s.sp.val = 16 → exec (.call nnn) s = .fault .stackOverflow)

/-- R140: 00EE pops the most recent entry into PC and leaves the entries as they are; with SP = 0 it is a
StackUnderflow. That a popped entry keeps its value is the spec's decision D7. -/
def Obligations.ReturnPopsIntoPc : Prop :=
  WordsOf 0xFFFF 0x00EE (fun _ => .ret) ∧
  ∀ s : State,
    (∀ k : Fin 16, s.sp.val = k.val + 1 → ∃ t, exec .ret s = .next t ∧ t.pc = s.stack.get k ∧ t.sp.val = k.val ∧
      (∀ j, t.stack.get j = s.stack.get j) ∧ SameExcept [.pc, .stack] s t) ∧
    (s.sp.val = 0 → exec .ret s = .fault .stackUnderflow)

/-- R143, R144: 3XKK and 4XKK. -/
def Obligations.SkipsCompareWithLiteral : Prop :=
  WordsOf 0xF000 0x3000 (fun w => .seKk (fieldX w) (fieldKK w)) ∧
  WordsOf 0xF000 0x4000 (fun w => .sneKk (fieldX w) (fieldKK w)) ∧
  ∀ (x : RegIx) (kk : Byte) (s : State),
    (∃ t, exec (.seKk x kk) s = .next t ∧ t.pc = (if s.reg x = kk then s.pc + 2 else s.pc) ∧
      SameExcept [.pc] s t) ∧
    (∃ t, exec (.sneKk x kk) s = .next t ∧ t.pc = (if s.reg x = kk then s.pc else s.pc + 2) ∧
      SameExcept [.pc] s t)

/-- R145, R146: 5XY0 and 9XY0. -/
def Obligations.SkipsCompareRegisters : Prop :=
  WordsOf 0xF00F 0x5000 (fun w => .seVy (fieldX w) (fieldY w)) ∧
  WordsOf 0xF00F 0x9000 (fun w => .sneVy (fieldX w) (fieldY w)) ∧
  ∀ (x y : RegIx) (s : State),
    (∃ t, exec (.seVy x y) s = .next t ∧ t.pc = (if s.reg x = s.reg y then s.pc + 2 else s.pc) ∧
      SameExcept [.pc] s t) ∧
    (∃ t, exec (.sneVy x y) s = .next t ∧ t.pc = (if s.reg x = s.reg y then s.pc else s.pc + 2) ∧
      SameExcept [.pc] s t)

/-- R147: BNNN adds V0, whatever bits 11:8 are, and does not truncate (the spec's decision D8). -/
def Obligations.IndexedJumpAddsVZero : Prop :=
  WordsOf 0xF000 0xB000 (fun w => .jpV0 (fieldNNN w)) ∧
  ∀ (nnn : Lit12) (s : State), ∃ t, exec (.jpV0 nnn) s = .next t ∧ t.pc.toNat = nnn.toNat + (s.reg 0).toNat ∧
    SameExcept [.pc] s t

/-! ### Register load, ALU and random (spec/42_alu.md) -/

/-- R160, R161: 6XKK and 7XKK write V[X] and no flag. -/
def Obligations.LiteralLoadAndAdd : Prop :=
  WordsOf 0xF000 0x6000 (fun w => .ldKk (fieldX w) (fieldKK w)) ∧
  WordsOf 0xF000 0x7000 (fun w => .addKk (fieldX w) (fieldKK w)) ∧
  ∀ (x : RegIx) (kk : Byte) (s : State),
    (∃ t, exec (.ldKk x kk) s = .next t ∧ t.reg x = kk ∧ RegsSameExcept [x] s t ∧ SameExcept [.regs] s t) ∧
    (∃ t, exec (.addKk x kk) s = .next t ∧ (t.reg x).toNat = ((s.reg x).toNat + kk.toNat) % 256 ∧
      RegsSameExcept [x] s t ∧ SameExcept [.regs] s t)

/-- R162 to R165: 8XY0 to 8XY3 write V[X] and no flag. -/
def Obligations.RegisterCopyAndLogic : Prop :=
  WordsOf 0xF00F 0x8000 (fun w => .ldVy (fieldX w) (fieldY w)) ∧
  WordsOf 0xF00F 0x8001 (fun w => .orVy (fieldX w) (fieldY w)) ∧
  WordsOf 0xF00F 0x8002 (fun w => .andVy (fieldX w) (fieldY w)) ∧
  WordsOf 0xF00F 0x8003 (fun w => .xorVy (fieldX w) (fieldY w)) ∧
  ∀ (x y : RegIx) (s : State),
    (∃ t, exec (.ldVy x y) s = .next t ∧ t.reg x = s.reg y ∧ RegsSameExcept [x] s t ∧ SameExcept [.regs] s t) ∧
    (∃ t, exec (.orVy x y) s = .next t ∧
      (∀ b, b < 8 → (t.reg x).getLsbD b = ((s.reg x).getLsbD b || (s.reg y).getLsbD b)) ∧
      RegsSameExcept [x] s t ∧ SameExcept [.regs] s t) ∧
    (∃ t, exec (.andVy x y) s = .next t ∧
      (∀ b, b < 8 → (t.reg x).getLsbD b = ((s.reg x).getLsbD b && (s.reg y).getLsbD b)) ∧
      RegsSameExcept [x] s t ∧ SameExcept [.regs] s t) ∧
    (∃ t, exec (.xorVy x y) s = .next t ∧
      (∀ b, b < 8 → (t.reg x).getLsbD b = ((s.reg x).getLsbD b != (s.reg y).getLsbD b)) ∧
      RegsSameExcept [x] s t ∧ SameExcept [.regs] s t)

/-- R166: 8XY4. For X = 0xF the sum stands in VF and the carry is lost: the spec's decision D6. -/
def Obligations.AddSetsCarry : Prop :=
  WordsOf 0xF00F 0x8004 (fun w => .addVy (fieldX w) (fieldY w)) ∧
  ∀ (x y : RegIx) (s : State), ∃ t, exec (.addVy x y) s = .next t ∧
    (t.reg x).toNat = ((s.reg x).toNat + (s.reg y).toNat) % 256 ∧
    (x ≠ 15 → t.reg 15 = if 255 < (s.reg x).toNat + (s.reg y).toNat then 1 else 0) ∧
    RegsSameExcept [x, 15] s t ∧ SameExcept [.regs] s t

/-- R167, R169: 8XY5 and 8XY7, the flag by strict comparison. For X = 0xF the difference stands in VF: the spec's
decision D6. -/
def Obligations.SubtractSetsStrictFlag : Prop :=
  WordsOf 0xF00F 0x8005 (fun w => .sub (fieldX w) (fieldY w)) ∧
  WordsOf 0xF00F 0x8007 (fun w => .subn (fieldX w) (fieldY w)) ∧
  ∀ (x y : RegIx) (s : State),
    (∃ t, exec (.sub x y) s = .next t ∧
      (t.reg x).toNat = ((s.reg x).toNat + 256 - (s.reg y).toNat) % 256 ∧
      (x ≠ 15 → t.reg 15 = if (s.reg y).toNat < (s.reg x).toNat then 1 else 0) ∧
      RegsSameExcept [x, 15] s t ∧ SameExcept [.regs] s t) ∧
    (∃ t, exec (.subn x y) s = .next t ∧
      (t.reg x).toNat = ((s.reg y).toNat + 256 - (s.reg x).toNat) % 256 ∧
      (x ≠ 15 → t.reg 15 = if (s.reg x).toNat < (s.reg y).toNat then 1 else 0) ∧
      RegsSameExcept [x, 15] s t ∧ SameExcept [.regs] s t)

/-- R168, R170: 8XY6 and 8XYE shift V[X] by one, whatever Y is, and report the bit shifted out. For X = 0xF the
shifted value stands in VF: the spec's decision D6. -/
def Obligations.ShiftsReportTheBitShiftedOut : Prop :=
  WordsOf 0xF00F 0x8006 (fun w => .shr (fieldX w) (fieldY w)) ∧
  WordsOf 0xF00F 0x800E (fun w => .shl (fieldX w) (fieldY w)) ∧
  ∀ (x y : RegIx) (s : State),
    (∃ t, exec (.shr x y) s = .next t ∧ (t.reg x).toNat = (s.reg x).toNat / 2 ∧
      (x ≠ 15 → (t.reg 15).toNat = (s.reg x).toNat % 2) ∧
      RegsSameExcept [x, 15] s t ∧ SameExcept [.regs] s t) ∧
    (∃ t, exec (.shl x y) s = .next t ∧ (t.reg x).toNat = (s.reg x).toNat * 2 % 256 ∧
      (x ≠ 15 → (t.reg 15).toNat = (s.reg x).toNat / 128) ∧
      RegsSameExcept [x, 15] s t ∧ SameExcept [.regs] s t)

/-- R171: CXKK. `Config.randIn s.draws` is the free byte of this draw (log 1): the statement holds for every value of
the count, and the next draw has another number. Rests on the spec's decision D17. -/
def Obligations.RandomByteIsMasked : Prop :=
  WordsOf 0xF000 0xC000 (fun w => .rnd (fieldX w) (fieldKK w)) ∧
  ∀ (x : RegIx) (kk : Byte) (s : State), ∃ t, exec (.rnd x kk) s = .next t ∧
    (∀ b, b < 8 → (t.reg x).getLsbD b = ((Config.randIn s.draws).getLsbD b && kk.getLsbD b)) ∧
    t.draws = s.draws + 1 ∧ RegsSameExcept [x] s t ∧ SameExcept [.regs, .draws] s t

/-! ### Index register and memory (spec/43_index_memory.md) -/

/-- R180: ANNN. -/
def Obligations.LoadIndexLiteral : Prop :=
  WordsOf 0xF000 0xA000 (fun w => .ldI (fieldNNN w)) ∧
  ∀ (nnn : Lit12) (s : State), ∃ t, exec (.ldI nnn) s = .next t ∧ t.i.toNat = nnn.toNat ∧ SameExcept [.index] s t

/-- R181: FX1E wraps I at 12 bits and writes VF. -/
def Obligations.AddToIndexSetsOverflow : Prop :=
  WordsOf 0xF0FF 0xF01E (fun w => .addIVx (fieldX w)) ∧
  ∀ (x : RegIx) (s : State), ∃ t, exec (.addIVx x) s = .next t ∧
    t.i.toNat = (s.i.toNat + (s.reg x).toNat) % 4096 ∧
    t.reg 15 = (if 0xFFF < s.i.toNat + (s.reg x).toNat then 1 else 0) ∧
    RegsSameExcept [15] s t ∧ SameExcept [.regs, .index] s t

/-- R182: FX29, the whole of V[X] times 5. -/
def Obligations.GlyphAddressIsFiveTimes : Prop :=
  WordsOf 0xF0FF 0xF029 (fun w => .ldFVx (fieldX w)) ∧
  ∀ (x : RegIx) (s : State), ∃ t, exec (.ldFVx x) s = .next t ∧ t.i.toNat = (s.reg x).toNat * 5 ∧
    SameExcept [.index] s t

/-- R183: FX33 stores hundreds, tens and units at I, I + 1, I + 2, or is a MemoryOverflow. The premise is the
memory's canonical form (`StepKeepsTheInvariant`). -/
def Obligations.DecimalDigitsAreStored : Prop :=
  WordsOf 0xF0FF 0xF033 (fun w => .ldBVx (fieldX w)) ∧
  ∀ (x : RegIx) (s : State), s.mem.wf →
    (s.i.toNat + 2 ≤ 0xFFF → ∃ t, exec (.ldBVx x) s = .next t ∧
      (t.byteAt s.i.toNat).toNat = (s.reg x).toNat / 100 ∧
      (t.byteAt (s.i.toNat + 1)).toNat = (s.reg x).toNat / 10 % 10 ∧
      (t.byteAt (s.i.toNat + 2)).toNat = (s.reg x).toNat % 10 ∧
      100 * (t.byteAt s.i.toNat).toNat + 10 * (t.byteAt (s.i.toNat + 1)).toNat + (t.byteAt (s.i.toNat + 2)).toNat =
        (s.reg x).toNat ∧
      BytesSameOutside s.i.toNat 3 s t ∧ SameExcept [.memory] s t) ∧
    (0xFFF < s.i.toNat + 2 → exec (.ldBVx x) s = .fault .memoryOverflow)

/-- R184: FX55 stores V0 to VX from I up and advances I by X + 1 in 16 bits (the spec's decision D11), or is a
MemoryOverflow. The premise is the memory's canonical form (`StepKeepsTheInvariant`). -/
def Obligations.RegistersAreStored : Prop :=
  WordsOf 0xF0FF 0xF055 (fun w => .stInd (fieldX w)) ∧
  ∀ (x : RegIx) (s : State), s.mem.wf →
    (s.i.toNat + x.val ≤ 0xFFF → ∃ t, exec (.stInd x) s = .next t ∧
      (∀ j : RegIx, j ≤ x → t.byteAt (s.i.toNat + j.val) = s.reg j) ∧
      BytesSameOutside s.i.toNat (x.val + 1) s t ∧ t.i.toNat = s.i.toNat + x.val + 1 ∧
      SameExcept [.memory, .index] s t) ∧
    (0xFFF < s.i.toNat + x.val → exec (.stInd x) s = .fault .memoryOverflow)

/-- R185: FX65 loads V0 to VX from I up and advances I by X + 1 in 16 bits (the spec's decision D11), or is a
MemoryOverflow. -/
def Obligations.RegistersAreLoaded : Prop :=
  WordsOf 0xF0FF 0xF065 (fun w => .ldInd (fieldX w)) ∧
  ∀ (x : RegIx) (s : State),
    (s.i.toNat + x.val ≤ 0xFFF → ∃ t, exec (.ldInd x) s = .next t ∧
      (∀ j : RegIx, j ≤ x → t.reg j = s.byteAt (s.i.toNat + j.val)) ∧
      (∀ j : RegIx, x < j → t.reg j = s.reg j) ∧ t.i.toNat = s.i.toNat + x.val + 1 ∧
      SameExcept [.regs, .index] s t) ∧
    (0xFFF < s.i.toNat + x.val → exec (.ldInd x) s = .fault .memoryOverflow)

/-- R184, R185, the source's property: what FX55 stored, FX65 loads back into any registers once I is set back. -/
def Obligations.StoreThenLoadRestoresRegisters : Prop :=
  ∀ (x : RegIx) (s t u : State), s.mem.wf → exec (.stInd x) s = .next t →
    (∀ a, u.byteAt a = t.byteAt a) → u.i = s.i →
    ∃ v, exec (.ldInd x) u = .next v ∧ (∀ j : RegIx, j ≤ x → v.reg j = s.reg j) ∧ v.i = t.i

/-- R62, R75: a word stored by FX55 is the word fetched there next, the byte at the lower address the high byte. -/
def Obligations.StoredWordIsFetched : Prop :=
  ∀ (x : RegIx) (s t : State), s.mem.wf → 1 ≤ x.val → exec (.stInd x) s = .next t →
    ∃ w, fetchWord (t.setPc s.i) = .ok w ∧ w.toNat = (s.reg 0).toNat * 256 + (s.reg 1).toNat

/-! ### Memory (spec/20_memory.md) -/

/-- R63, R64: an access is checked as a whole: in bounds it reads or writes exactly its bytes, and otherwise it is a
MemoryOverflow. Rests on the spec's decision D12. The premise, and the clause that a write keeps it (`t.mem.wf`), are
the model's own canonical form of memory (log 23), not a rule of the spec. -/
def Obligations.AccessesAreCheckedWhole : Prop :=
  ∀ (s : State) (a : Nat), s.mem.wf →
    (∀ bytes : List Byte,
      (bytes = [] ∨ a + bytes.length - 1 ≤ 0xFFF → ∃ t, memWrite s a bytes = .ok t ∧ t.mem.wf ∧
        (∀ j (h : j < bytes.length), t.byteAt (a + j) = bytes[j]) ∧ BytesSameOutside a bytes.length s t ∧
        SameExcept [.memory] s t) ∧
      (bytes ≠ [] → 0xFFF < a + bytes.length - 1 → memWrite s a bytes = .error .memoryOverflow)) ∧
    (∀ n : Nat,
      (n = 0 ∨ a + n - 1 ≤ 0xFFF → ∃ bytes, memRead s a n = .ok bytes ∧ bytes.length = n ∧
        ∀ j (h : j < bytes.length), bytes[j] = s.byteAt (a + j)) ∧
      (1 ≤ n → 0xFFF < a + n - 1 → memRead s a n = .error .memoryOverflow))

/-- The model's own form of memory (log 23): two canonical memories that read the same everywhere are the same data. -/
def Obligations.CanonicalMemoriesAreExtensional : Prop :=
  ∀ m n : Memory, m.wf → n.wf → (∀ a, m.read a = n.read a) → m = n

/-! ### Display (spec/44_display.md) -/

/-- R201: 00E0. -/
def Obligations.ClearScreenTurnsEveryPixelOff : Prop :=
  WordsOf 0xFFFF 0x00E0 (fun _ => .cls) ∧
  ∀ s : State, ∃ t, exec .cls s = .next t ∧ (∀ r c, t.fb.pixel r c = false) ∧ t.chg = true ∧
    SameExcept [.pixels, .changed] s t

/-- R200, R202, R203: DXYN toggles exactly the pixels that a set sprite bit lands on, each coordinate wrapped on its
own; VF is 1 exactly when one of them was on; CHG is set; out of range it is a MemoryOverflow. N = 0 draws nothing
(the spec's decision D21); rows are V[Y]'s and columns V[X]'s (D25). -/
def Obligations.DrawTogglesTheSpritePixels : Prop :=
  WordsOf 0xF000 0xD000 (fun w => .drw (fieldX w) (fieldY w) (fieldN w)) ∧
  ∀ (x y : RegIx) (n : Nibble) (s : State),
    let lands := fun (r : Fin 32) (c : Fin 64) => ∃ j b, j < n.toNat ∧ b < 8 ∧
      (s.byteAt (s.i.toNat + j)).getLsbD (7 - b) = true ∧
      r.val = ((s.reg y).toNat + j) % 32 ∧ c.val = ((s.reg x).toNat + b) % 64
    (n.toNat = 0 ∨ s.i.toNat + n.toNat - 1 ≤ 0xFFF → ∃ t, exec (.drw x y n) s = .next t ∧
      (∀ r c, lands r c → t.fb.pixel r c = !s.fb.pixel r c) ∧
      (∀ r c, ¬ lands r c → t.fb.pixel r c = s.fb.pixel r c) ∧
      ((∃ r c, lands r c ∧ s.fb.pixel r c = true) → t.reg 15 = 1) ∧
      ((¬ ∃ r c, lands r c ∧ s.fb.pixel r c = true) → t.reg 15 = 0) ∧
      t.chg = true ∧ RegsSameExcept [15] s t ∧ SameExcept [.regs, .pixels, .changed] s t) ∧
    (1 ≤ n.toNat → 0xFFF < s.i.toNat + n.toNat - 1 → exec (.drw x y n) s = .fault .memoryOverflow)

/-- R203 and the source's property: drawing the same sprite twice at the same place restores the framebuffer; on a
clear one the first draw reports no collision and the second one does exactly when some sprite bit is set. -/
def Obligations.DrawingTwiceRestores : Prop :=
  ∀ (rows : List Byte) (x y : Nat), rows.length ≤ 15 →
    (∀ fb, (drawSprite rows x y (drawSprite rows x y fb).1).1 = fb) ∧
    (drawSprite rows x y FrameBuffer.clear).2 = false ∧
    ((drawSprite rows x y (drawSprite rows x y FrameBuffer.clear).1).2 = true ↔ ∃ r ∈ rows, r ≠ 0)

/-! ### Keypad and timers (spec/45_keypad_timers.md) -/

/-- R210, R211, R216: EX9E and EXA1 skip by the key that V[X]'s low nibble numbers (the spec's decision D16). -/
def Obligations.KeySkipsReadTheLowNibble : Prop :=
  WordsOf 0xF0FF 0xE09E (fun w => .skp (fieldX w)) ∧
  WordsOf 0xF0FF 0xE0A1 (fun w => .sknp (fieldX w)) ∧
  ∀ (x : RegIx) (k : KeyIx) (s : State), k.val = (s.reg x).toNat % 16 →
    (∃ t, exec (.skp x) s = .next t ∧ t.pc = (if s.key.get k = true then s.pc + 2 else s.pc) ∧
      SameExcept [.pc] s t) ∧
    (∃ t, exec (.sknp x) s = .next t ∧ t.pc = (if s.key.get k = true then s.pc else s.pc + 2) ∧
      SameExcept [.pc] s t)

/-- R212, the issuing cycle: FX0A sets the wait marker and nothing else, whatever keys are pressed. Rests on the
spec's decision D13. -/
def Obligations.KeyWaitIsIssued : Prop :=
  WordsOf 0xF0FF 0xF00A (fun w => .ldVxK (fieldX w)) ∧
  ∀ (x : RegIx) (s : State), ∃ t, exec (.ldVxK x) s = .next t ∧ t.waitV = true ∧ t.waitX = x ∧
    SameExcept [.wait] s t

/-- R212, the whole wait: FX0A issued with no key pressed, then any number w of cycles without a key, then a key
pressed by the host, then one cycle. Nothing but PC (past the FX0A), the timers (w + 2 ticks) and the marker changes
until the key's number is in V[X]. Rests on the spec's decisions D13 to D15. -/
def Obligations.KeyWaitRunsToItsEnd : Prop :=
  ∀ (s : State) (x k : RegIx) (w : Nat), Runs s (.ldVxK x) → (∀ j, s.key.get j = false) →
    ∃ t, core.run (w + 1) s = .next t ∧ t.waitV = true ∧ t.waitX = x ∧ t.pc = s.pc + 2 ∧
      t.dt.toNat = s.dt.toNat - (w + 1) ∧ t.st.toNat = s.st.toNat - (w + 1) ∧
      SameExcept [.pc, .wait, .delay, .sound] s t ∧
      ∃ u, step (setKey k true t) = .next u ∧ (u.reg x).toNat = k.val ∧ RegsSameExcept [x] s u ∧
        u.waitV = false ∧ u.pc = s.pc + 2 ∧ u.dt.toNat = s.dt.toNat - (w + 2) ∧
        u.st.toNat = s.st.toNat - (w + 2) ∧
        SameExcept [.regs, .keys, .pc, .wait, .delay, .sound] s u

/-- R213 to R215: FX07 reads DT before the tick of its cycle, FX15 and FX18 write DT and ST before the tick of theirs.
What the tick then leaves is the spec's derivation from R127. -/
def Obligations.TimerRegistersAreReadAndSet : Prop :=
  WordsOf 0xF0FF 0xF007 (fun w => .ldVxDt (fieldX w)) ∧
  WordsOf 0xF0FF 0xF015 (fun w => .ldDtVx (fieldX w)) ∧
  WordsOf 0xF0FF 0xF018 (fun w => .ldStVx (fieldX w)) ∧
  ∀ (x : RegIx) (s : State),
    (∃ t, exec (.ldVxDt x) s = .next t ∧ t.reg x = s.dt ∧ (timerTick t).dt.toNat = s.dt.toNat - 1 ∧
      RegsSameExcept [x] s t ∧ SameExcept [.regs] s t) ∧
    (∃ t, exec (.ldDtVx x) s = .next t ∧ t.dt = s.reg x ∧ (timerTick t).dt.toNat = (s.reg x).toNat - 1 ∧
      SameExcept [.delay] s t) ∧
    (∃ t, exec (.ldStVx x) s = .next t ∧ t.st = s.reg x ∧ (timerTick t).st.toNat = (s.reg x).toNat - 1 ∧
      SameExcept [.sound] s t)

/-! ### Reset and the host (spec/70_reset_and_hazards.md, spec/60_exceptions.md) -/

/-- R45, R71, R244, R260: what reset leaves, from any state. The zeros are the spec's decision D19 and the font bytes
are its passage G1, held as `font` (log 6, log 7); the count of draws is the model's own and is kept (log 2). -/
def Obligations.ResetLeavesTheStatedValues : Prop :=
  font.length = 80 ∧ (hostReset State.reset = State.reset) ∧
  ∀ s t : State, t = hostReset s →
    (∀ a (h : a < font.length), t.byteAt a = font[a]) ∧ (∀ a, 0x50 ≤ a → a ≤ 0xFFF → t.byteAt a = 0) ∧
    (∀ r, t.reg r = 0) ∧ t.i = 0 ∧ t.pc = 0x200 ∧ (∀ k, t.stack.get k = 0) ∧ t.sp.val = 0 ∧ t.dt = 0 ∧ t.st = 0 ∧
    (∀ k, t.key.get k = false) ∧ (∀ r c, t.fb.pixel r c = false) ∧ t.chg = false ∧ t.waitV = false ∧ t.waitX = 0 ∧
    t.draws = s.draws

/-- R245: load_program writes its bytes from 0x200 up and nothing else, and with more than 3584 bytes it is a
RomTooLarge that changes nothing. Rests on the spec's decision D22. The premise is the memory's canonical form. -/
def Obligations.LoadProgramWritesItsBytes : Prop :=
  ∀ (bytes : List Byte) (s : State), s.mem.wf →
    (bytes.length ≤ 3584 → ∃ t, loadProgram bytes s = .next t ∧
      (∀ j (h : j < bytes.length), t.byteAt (0x200 + j) = bytes[j]) ∧ BytesSameOutside 0x200 bytes.length s t ∧
      SameExcept [.memory] s t) ∧
    (3584 < bytes.length → loadProgram bytes s = .fault .romTooLarge ∧ hostMove (.loadProgram bytes) s = s)

/-- R246: set_key writes one key and leaves the other fifteen, and all else, as they are; no cycle and no other host
operation but reset changes a key. -/
def Obligations.SetKeyWritesOneKey : Prop :=
  (∀ (k : KeyIx) (pressed : Bool) (s : State),
    (setKey k pressed s).key.get k = pressed ∧
    (∀ j, j ≠ k → (setKey k pressed s).key.get j = s.key.get j) ∧ SameExcept [.keys] s (setKey k pressed s)) ∧
  (∀ s : State, (executeCycle s).1.key = s.key) ∧
  ∀ (m : HostMove) (s : State), m ≠ .reset → (∀ k pressed, m ≠ .setKey k pressed) → (hostMove m s).key = s.key

/-- R247, and of R248 and R249 what they say of the operation itself: pixel_at and sound_timer change nothing and
return FB[row][col] and ST; take_changed_flag returns CHG and clears it. -/
def Obligations.HostReadsOfTheDevices : Prop :=
  ∀ (row : Fin 32) (col : Fin 64) (s : State),
    pixelAt row col s = s.fb.pixel row col ∧ hostMove (.pixelAt row col) s = s ∧
    soundTimer s = s.st ∧ hostMove .soundTimer s = s ∧
    (takeChangedFlag s).1 = s.chg ∧ (takeChangedFlag s).2.chg = false ∧ SameExcept [.changed] s (takeChangedFlag s).2

/-! ### Invariants (spec/10_state.md R46) -/

/-- The invariant holds right after reset; its clause on memory is the model's own (log 23). -/
def Obligations.ResetMeetsTheInvariant : Prop := Inv State.reset

/-- R46, from every state that meets it, reached by a run or not: the invariant (PC at most 0x10FE, I at most 0x1000,
every live stack entry from 2 to 0x1000, memory in the model's canonical form, log 23) is kept by every step. -/
def Obligations.StepKeepsTheInvariant : Prop :=
  ∀ s t : State, Inv s → step s = .next t → Inv t

/-- The invariant is kept by every move of the host. -/
def Obligations.HostMovesKeepTheInvariant : Prop :=
  ∀ (m : HostMove) (s : State), Inv s → Inv (hostMove m s)

/-- R46, over everything cycles and host operations reach from reset: the bounds on SP, PC, I and the live stack
entries; and in a key wait, the cycle in which it began executed an FX0A with X = WAITX two bytes before PC. -/
def Obligations.ReachableStatesMeetTheBounds : Prop :=
  ∀ s : State, Reachable s →
    s.sp.val ≤ 16 ∧ s.pc.toNat ≤ 0x10FE ∧ s.i.toNat ≤ 0x1000 ∧
    (∀ k : Fin 16, k.val < s.sp.val → 2 ≤ (s.stack.get k).toNat ∧ (s.stack.get k).toNat ≤ 0x1000) ∧
    (s.waitV = true → ∃ b, Reachable b ∧ WaitBeganIn b s ∧ Runs b (.ldVxK s.waitX) ∧ s.pc = b.pc + 2)
end

