-- ==== Sys2Proof/Laws/Encoding.lean ====
section
/-! SUPPORT. How fields stand in a word: what each field of `match OR fields` reads, and which mask bits it leaves. -/

namespace Sys2Proof

/-! ### Disjoint bits -/

/-- Where a mask has a bit, a word disjoint from the mask has none. -/
theorem getLsbD_of_and_eq_zero {a m : Word} (h : a &&& m = 0) {k : Nat} (hk : m.getLsbD k = true) :
    a.getLsbD k = false := by
  have := congrArg (fun w : Word => w.getLsbD k) h
  simpa [hk] using this

/-- OR with bits outside the mask keeps the masked value. -/
theorem and_of_or_disjoint {c a m v : Word} (hc : c &&& m = v) (ha : a &&& m = 0) : (c ||| a) &&& m = v := by
  rw [← hc]
  refine BitVec.eq_of_getLsbD_eq fun k _ => ?_
  simp only [BitVec.getLsbD_and, BitVec.getLsbD_or]
  cases hm : m.getLsbD k
  · simp
  · simp [getLsbD_of_and_eq_zero ha hm]

/-- Two words outside a mask are outside it together. -/
theorem or_and_eq_zero {a b m : Word} (ha : a &&& m = 0) (hb : b &&& m = 0) : (a ||| b) &&& m = 0 :=
  and_of_or_disjoint ha hb

theorem placeReg_outside_xMask : ∀ x : RegIx, placeReg x 8 &&& 0xF0FF = 0 := by decide
theorem placeReg_outside_yMask : ∀ y : RegIx, placeReg y 4 &&& 0xFF0F = 0 := by decide

/-- A mask that is part of another leaves no more. -/
theorem and_eq_zero_of_part {a m n : Word} (h : a &&& m = 0) (hn : n &&& m = n) : a &&& n = 0 := by
  rw [← hn, BitVec.and_comm n m, ← BitVec.and_assoc, h]
  exact BitVec.zero_and

theorem setWidth_byte_outside (b : Byte) : b.setWidth 16 &&& 0xFF00#16 = 0 := by
  refine BitVec.eq_of_toNat_eq ?_
  rw [BitVec.toNat_and, BitVec.toNat_setWidth, Nat.mod_eq_of_lt (Nat.lt_of_lt_of_le b.isLt (by decide))]
  exact Nat.eq_of_testBit_eq fun k => by
    by_cases hk : k < 8
    · have : (0xFF00#16).toNat.testBit k = false := by revert hk k; decide
      rw [Nat.testBit_and, this, Bool.and_false]
      exact (Nat.zero_testBit k).symm
    · simp [Nat.testBit_lt_two_pow (Nat.lt_of_lt_of_le b.isLt (Nat.pow_le_pow_right (by decide) (Nat.le_of_not_lt hk)))]

theorem setWidth_lit12_outside (b : Lit12) : b.setWidth 16 &&& 0xF000#16 = 0 := by
  refine BitVec.eq_of_toNat_eq ?_
  rw [BitVec.toNat_and, BitVec.toNat_setWidth, Nat.mod_eq_of_lt (Nat.lt_of_lt_of_le b.isLt (by decide))]
  exact Nat.eq_of_testBit_eq fun k => by
    by_cases hk : k < 12
    · have : (0xF000#16).toNat.testBit k = false := by revert hk k; decide
      rw [Nat.testBit_and, this, Bool.and_false]
      exact (Nat.zero_testBit k).symm
    · simp [Nat.testBit_lt_two_pow (Nat.lt_of_lt_of_le b.isLt (Nat.pow_le_pow_right (by decide) (Nat.le_of_not_lt hk)))]

theorem setWidth_nibble_outside (b : Nibble) : b.setWidth 16 &&& 0xFFF0#16 = 0 := by
  revert b; decide

/-! ### Fields -/

theorem fieldX_placeReg : ∀ x : RegIx, fieldX (placeReg x 8) = x := by decide
theorem fieldY_placeReg : ∀ y : RegIx, fieldY (placeReg y 4) = y := by decide

/-- A slice of an OR is the slice of one part when the other part has no bit there. -/
theorem extract_or_left {a b : Word} {lo len : Nat} (h : ∀ k, k < len → b.getLsbD (lo + k) = false) :
    (a ||| b).extractLsb' lo len = a.extractLsb' lo len := by
  refine BitVec.eq_of_getLsbD_eq fun k hk => ?_
  simp [hk, h k hk]

theorem fieldX_or {a b : Word} (h : b &&& 0x0F00 = 0) : fieldX (a ||| b) = fieldX a := by
  unfold fieldX
  rw [extract_or_left fun k hk => getLsbD_of_and_eq_zero h (by revert hk k; decide)]

theorem fieldY_or {a b : Word} (h : b &&& 0x00F0 = 0) : fieldY (a ||| b) = fieldY a := by
  unfold fieldY
  rw [extract_or_left fun k hk => getLsbD_of_and_eq_zero h (by revert hk k; decide)]

theorem fieldN_or {a b : Word} (h : b &&& 0x000F = 0) : fieldN (a ||| b) = fieldN a :=
  extract_or_left fun k hk => getLsbD_of_and_eq_zero h (by revert hk k; decide)

theorem fieldKK_or {a b : Word} (h : b &&& 0x00FF = 0) : fieldKK (a ||| b) = fieldKK a :=
  extract_or_left fun k hk => getLsbD_of_and_eq_zero h (by revert hk k; decide)

theorem fieldNNN_or {a b : Word} (h : b &&& 0x0FFF = 0) : fieldNNN (a ||| b) = fieldNNN a :=
  extract_or_left fun k hk => getLsbD_of_and_eq_zero h (by revert hk k; decide)

theorem fieldN_setWidth (n : Nibble) : fieldN (n.setWidth 16) = n := by revert n; decide

theorem fieldKK_setWidth (kk : Byte) : fieldKK (kk.setWidth 16) = kk :=
  BitVec.eq_of_getLsbD_eq fun k hk => by
    simp [fieldKK, hk]
    omega

theorem fieldNNN_setWidth (nnn : Lit12) : fieldNNN (nnn.setWidth 16) = nnn :=
  BitVec.eq_of_getLsbD_eq fun k hk => by
    simp [fieldNNN, hk]
    omega

/-! ### A field read and put back -/

theorem placeReg_fieldX (w : Word) : placeReg (fieldX w) 8 = w &&& 0x0F00 := by
  have h : (w.extractLsb' 8 4).setWidth 16 <<< 8 = w &&& 0x0F00#16 := by
    refine BitVec.eq_of_getLsbD_eq fun k hk => ?_
    simp only [BitVec.getLsbD_shiftLeft, BitVec.getLsbD_setWidth, BitVec.getLsbD_extractLsb', BitVec.getLsbD_and]
    interval_cases k <;> simp
  have e : BitVec.ofNat 16 (fieldX w).val = (w.extractLsb' 8 4).setWidth 16 :=
    BitVec.eq_of_toNat_eq (by simp [fieldX])
  unfold placeReg
  exact (congrArg (fun v : Word => v <<< _) e).trans h

theorem placeReg_fieldY (w : Word) : placeReg (fieldY w) 4 = w &&& 0x00F0 := by
  have h : (w.extractLsb' 4 4).setWidth 16 <<< 4 = w &&& 0x00F0#16 := by
    refine BitVec.eq_of_getLsbD_eq fun k hk => ?_
    simp only [BitVec.getLsbD_shiftLeft, BitVec.getLsbD_setWidth, BitVec.getLsbD_extractLsb', BitVec.getLsbD_and]
    interval_cases k <;> simp
  have e : BitVec.ofNat 16 (fieldY w).val = (w.extractLsb' 4 4).setWidth 16 :=
    BitVec.eq_of_toNat_eq (by simp [fieldY])
  unfold placeReg
  exact (congrArg (fun v : Word => v <<< _) e).trans h

theorem setWidth_fieldN (w : Word) : (fieldN w).setWidth 16 = w &&& 0x000F := by
  refine BitVec.eq_of_getLsbD_eq fun k hk => ?_
  simp only [fieldN, BitVec.getLsbD_setWidth, BitVec.getLsbD_extractLsb', BitVec.getLsbD_and]
  interval_cases k <;> simp

theorem setWidth_fieldKK (w : Word) : (fieldKK w).setWidth 16 = w &&& 0x00FF := by
  refine BitVec.eq_of_getLsbD_eq fun k hk => ?_
  simp only [fieldKK, BitVec.getLsbD_setWidth, BitVec.getLsbD_extractLsb', BitVec.getLsbD_and]
  interval_cases k <;> simp

theorem setWidth_fieldNNN (w : Word) : (fieldNNN w).setWidth 16 = w &&& 0x0FFF := by
  refine BitVec.eq_of_getLsbD_eq fun k hk => ?_
  simp only [fieldNNN, BitVec.getLsbD_setWidth, BitVec.getLsbD_extractLsb', BitVec.getLsbD_and]
  interval_cases k <;> simp

/-! ### Words and their bytes -/

/-- R62: the byte at the lower address counts 256. -/
theorem wordOfBytes_toNat (hi lo : Byte) : (wordOfBytes hi lo).toNat = hi.toNat * 256 + lo.toNat := by
  have := lo.isLt
  simp only [wordOfBytes, BitVec.toNat_append]
  rw [← Nat.shiftLeft_add_eq_or_of_lt (by omega), Nat.shiftLeft_eq]

/-- The two bytes of a word make the word again. -/
theorem wordOfBytes_bytes (w : Word) : wordOfBytes (highByte w) (lowByte w) = w := by
  apply BitVec.eq_of_toNat_eq
  have := w.isLt
  rw [wordOfBytes_toNat]
  simp only [highByte, lowByte, BitVec.extractLsb'_toNat, Nat.shiftRight_eq_div_pow]
  omega

/-! ### The words of the formats (R92, R104): each field reads its operand, the mask reads the match -/

section
variable (c : Word) (x y : RegIx)

theorem word_xss (h : c &&& 0x0F00 = 0) : fieldX (c ||| placeReg x 8) = x := by
  rw [BitVec.or_comm, fieldX_or h, fieldX_placeReg]

theorem word_xss_mask {mask val : Word} (hc : c &&& mask = val) (hm : mask &&& 0xF0FF = mask) :
    (c ||| placeReg x 8) &&& mask = val :=
  and_of_or_disjoint hc (and_eq_zero_of_part (placeReg_outside_xMask x) hm)

theorem word_xys (h : c &&& 0x0FF0 = 0) :
    fieldX (c ||| placeReg x 8 ||| placeReg y 4) = x ∧ fieldY (c ||| placeReg x 8 ||| placeReg y 4) = y := by
  constructor
  · rw [fieldX_or (and_eq_zero_of_part (placeReg_outside_yMask y) (by decide)),
      word_xss c x (and_eq_zero_of_part h (by decide))]
  · rw [BitVec.or_comm, fieldY_or (or_and_eq_zero (and_eq_zero_of_part h (by decide))
      (and_eq_zero_of_part (placeReg_outside_xMask x) (by decide))), fieldY_placeReg]

theorem word_xys_mask {mask val : Word} (hc : c &&& mask = val) (hm : mask &&& 0xF00F = mask) :
    (c ||| placeReg x 8 ||| placeReg y 4) &&& mask = val :=
  and_of_or_disjoint
    (word_xss_mask c x hc (by rw [← hm, BitVec.and_assoc]; congr 1))
    (and_eq_zero_of_part (placeReg_outside_yMask y) (by rw [← hm, BitVec.and_assoc]; congr 1))

theorem word_xkk (kk : Byte) (h : c &&& 0x0FFF = 0) :
    fieldX (c ||| placeReg x 8 ||| kk.setWidth 16) = x ∧ fieldKK (c ||| placeReg x 8 ||| kk.setWidth 16) = kk := by
  constructor
  · rw [fieldX_or (and_eq_zero_of_part (setWidth_byte_outside kk) (by decide)),
      word_xss c x (and_eq_zero_of_part h (by decide))]
  · rw [BitVec.or_comm, fieldKK_or (or_and_eq_zero (and_eq_zero_of_part h (by decide))
      (and_eq_zero_of_part (placeReg_outside_xMask x) (by decide))), fieldKK_setWidth]

theorem word_xkk_mask (kk : Byte) (hc : c &&& 0xF000 = c) :
    (c ||| placeReg x 8 ||| kk.setWidth 16) &&& 0xF000 = c :=
  and_of_or_disjoint (word_xss_mask c x hc (by decide)) (and_eq_zero_of_part (setWidth_byte_outside kk) (by decide))

theorem word_nnn (nnn : Lit12) (h : c &&& 0x0FFF = 0) : fieldNNN (c ||| nnn.setWidth 16) = nnn := by
  rw [BitVec.or_comm, fieldNNN_or h, fieldNNN_setWidth]

theorem word_nnn_mask (nnn : Lit12) (hc : c &&& 0xF000 = c) : (c ||| nnn.setWidth 16) &&& 0xF000 = c :=
  and_of_or_disjoint hc (setWidth_lit12_outside nnn)

theorem word_xyn (n : Nibble) (h : c &&& 0x0FFF = 0) :
    fieldX (c ||| placeReg x 8 ||| placeReg y 4 ||| n.setWidth 16) = x ∧
    fieldY (c ||| placeReg x 8 ||| placeReg y 4 ||| n.setWidth 16) = y ∧
    fieldN (c ||| placeReg x 8 ||| placeReg y 4 ||| n.setWidth 16) = n := by
  have hn := setWidth_nibble_outside n
  have hxy := word_xys c x y (and_eq_zero_of_part h (by decide))
  refine ⟨?_, ?_, ?_⟩
  · rw [fieldX_or (and_eq_zero_of_part hn (by decide)), hxy.1]
  · rw [fieldY_or (and_eq_zero_of_part hn (by decide)), hxy.2]
  · rw [BitVec.or_comm, fieldN_or (or_and_eq_zero (or_and_eq_zero (and_eq_zero_of_part h (by decide))
      (and_eq_zero_of_part (placeReg_outside_xMask x) (by decide)))
      (and_eq_zero_of_part (placeReg_outside_yMask y) (by decide))), fieldN_setWidth]

theorem word_xyn_mask (n : Nibble) (hc : c &&& 0xF000 = c) :
    (c ||| placeReg x 8 ||| placeReg y 4 ||| n.setWidth 16) &&& 0xF000 = c :=
  and_of_or_disjoint (word_xys_mask c x y hc (by decide)) (and_eq_zero_of_part (setWidth_nibble_outside n) (by decide))

end

end Sys2Proof
end

