-- ==== Sys2Proof/Laws/Memory.lean ====
section
/-! SUPPORT. The laws of memory: read after write, and that every operation keeps the canonical form. -/

namespace Sys2Proof.Machine.Memory

theorem read_nil (a : Nat) : read [] a = resetByte a := rfl

theorem read_cons (b : Nat) (x : Byte) (m : Memory) (a : Nat) :
    read ((b, x) :: m) a = if a = b then x else read m a := rfl

/-- An address that no cell names reads as reset leaves it. -/
theorem read_of_forall_ne {m : Memory} {a : Nat} (h : ∀ c ∈ m, c.1 ≠ a) : read m a = resetByte a := by
  induction m with
  | nil => rfl
  | cons c m ih =>
    obtain ⟨b, y⟩ := c
    rw [read_cons, if_neg (Ne.symm (h (b, y) (by simp)))]
    exact ih fun d hd => h d (by simp [hd])

/-- The cells recorded for a write, in front of cells that do not name the address. -/
theorem read_cell_append {m : Memory} {a : Nat} (h : ∀ c ∈ m, c.1 ≠ a) (x : Byte) (b : Nat) :
    read (cell a x ++ m) b = if b = a then x else read m b := by
  unfold cell
  split
  · next hx =>
    by_cases hb : b = a
    · rw [if_pos hb, hb, hx]; exact read_of_forall_ne h
    · rw [if_neg hb]; rfl
  · rfl

theorem wf_nil : wf [] := by simp [wf]

theorem wf_tail {c : Host.Cell} {m : Memory} (h : wf (c :: m)) : wf m :=
  ⟨(List.pairwise_cons.mp h.1).2, fun d hd => h.2 d (List.mem_cons_of_mem _ hd)⟩

/-- Every later cell of a canonical memory lies above the first. -/
theorem lt_of_wf_cons {c : Host.Cell} {m : Memory} (h : wf (c :: m)) : ∀ d ∈ m, c.1 < d.1 :=
  (List.pairwise_cons.mp h.1).1

theorem wf_cell_append {m : Memory} {a : Nat} {x : Byte} (hm : wf m) (ha : a < Config.memSize)
    (h : ∀ c ∈ m, a < c.1) : wf (cell a x ++ m) := by
  unfold cell
  split
  · exact hm
  · next hx =>
    refine ⟨List.pairwise_cons.mpr ⟨h, hm.1⟩, fun d hd => ?_⟩
    rcases List.mem_cons.mp hd with rfl | hd
    · exact ⟨ha, hx⟩
    · exact hm.2 d hd

/-- The cells of a written memory are the old ones and perhaps the new one. -/
theorem mem_write {m : Memory} {a : Nat} {x : Byte} {d : Host.Cell} (h : d ∈ write m a x) :
    d ∈ m ∨ d = (a, x) := by
  induction m with
  | nil =>
    unfold write cell at h
    split at h <;> simp_all
  | cons c m ih =>
    obtain ⟨b, y⟩ := c
    unfold write cell at h
    split at h
    · split at h <;> (simp_all; try tauto)
    · split at h
      · split at h <;> (simp_all; try tauto)
      · rcases List.mem_cons.mp h with rfl | h
        · simp
        · rcases ih h with h | h <;> simp [h]

/-- A write keeps the canonical form. -/
theorem wf_write {m : Memory} (hm : wf m) {a : Nat} (ha : a < Config.memSize) (x : Byte) :
    wf (write m a x) := by
  induction m with
  | nil =>
    have := wf_cell_append (x := x) wf_nil ha (by simp)
    simpa [write] using this
  | cons c m ih =>
    obtain ⟨b, y⟩ := c
    have hlt := lt_of_wf_cons hm
    unfold write
    split
    · next hab =>
      refine wf_cell_append hm ha fun d hd => ?_
      rcases List.mem_cons.mp hd with rfl | hd
      · exact hab
      · exact Nat.lt_trans hab (hlt d hd)
    · next hab =>
      split
      · next heq =>
        subst heq
        exact wf_cell_append (wf_tail hm) ha hlt
      · next hne =>
        have hw := ih (wf_tail hm)
        refine ⟨List.pairwise_cons.mpr ⟨fun d hd => ?_, hw.1⟩, fun d hd => ?_⟩
        · rcases mem_write hd with hd | rfl
          · exact hlt d hd
          · show b < a; omega
        · rcases List.mem_cons.mp hd with rfl | hd
          · exact hm.2 _ (by simp)
          · exact hw.2 d hd

/-- Read after write, in a canonical memory. -/
theorem read_write {m : Memory} (hm : wf m) (a : Nat) (x : Byte) (b : Nat) :
    read (write m a x) b = if b = a then x else read m b := by
  induction m with
  | nil =>
    have := read_cell_append (m := []) (a := a) (by simp) x b
    simpa [write] using this
  | cons c m ih =>
    obtain ⟨k, y⟩ := c
    have hlt := lt_of_wf_cons hm
    unfold write
    split
    · next hak =>
      refine read_cell_append (fun d hd => ?_) x b
      rcases List.mem_cons.mp hd with rfl | hd
      · exact Nat.ne_of_gt hak
      · exact Nat.ne_of_gt (Nat.lt_trans hak (hlt d hd))
    · split
      · next heq =>
        subst heq
        rw [read_cell_append (fun d hd => Nat.ne_of_gt (hlt d hd)) x b, read_cons]
        split <;> simp_all
      · next hne =>
        rw [read_cons, read_cons, ih (wf_tail hm)]
        by_cases hbk : b = k
        · subst hbk
          simp [Ne.symm hne]
        · simp [hbk]

/-- Writing a range inside memory keeps the canonical form. -/
theorem wf_writeBytes (bytes : List Byte) {m : Memory} (hm : wf m) {a : Nat}
    (h : a + bytes.length ≤ Config.memSize) : wf (writeBytes m a bytes) := by
  induction bytes generalizing m a with
  | nil => exact hm
  | cons x rest ih =>
    rw [List.length_cons] at h
    exact ih (wf_write hm (by omega) x) (by omega)

/-- Writing no byte changes nothing. -/
@[simp] theorem writeBytes_nil (m : Memory) (a : Nat) : writeBytes m a [] = m := rfl

/-- Read after a range was written: the range holds the bytes, every other address what it held. -/
theorem read_writeBytes (bytes : List Byte) {m : Memory} (hm : wf m) {a : Nat}
    (h : a + bytes.length ≤ Config.memSize) (b : Nat) :
    read (writeBytes m a bytes) b = if a ≤ b ∧ b < a + bytes.length then bytes.getD (b - a) 0 else read m b := by
  induction bytes generalizing m a with
  | nil => rw [writeBytes_nil, if_neg (by simp)]
  | cons x rest ih =>
    rw [List.length_cons] at h
    show read (writeBytes (write m a x) (a + 1) rest) b = _
    rw [ih (wf_write hm (by omega) x) (by omega), read_write hm, List.length_cons]
    by_cases hb : b = a
    · subst hb
      rw [if_neg (by omega), if_pos rfl, if_pos (by omega), Nat.sub_self]
      rfl
    · by_cases hr : a + 1 ≤ b ∧ b < a + 1 + rest.length
      · rw [if_pos hr, if_pos (by omega), show b - a = b - (a + 1) + 1 by omega]
        rfl
      · rw [if_neg hr, if_neg hb, if_neg (by omega)]

@[simp] theorem length_readBytes (m : Memory) (a n : Nat) : (readBytes m a n).length = n := by
  simp [readBytes]

/-- The j-th byte read of a range is the byte at its j-th address. -/
theorem getD_readBytes (m : Memory) (a n j : Nat) (h : j < n) (d : Byte) :
    (readBytes m a n).getD j d = read m (a + j) := by
  simp [readBytes, List.getD, h]

end Sys2Proof.Machine.Memory
end

