-- ==== Sys2Proof/Laws/State.lean ====
section
/-! SUPPORT. One lemma per field per update of the state, each true by rfl, and the same for reading one register and
one byte of memory, so that no later proof unfolds a record update. -/

namespace Sys2Proof.Machine.State

@[simp] theorem setReg_mem (s : State) (x : RegIx) (b : Byte) : (s.setReg x b).mem = s.mem := rfl
@[simp] theorem setReg_v (s : State) (x : RegIx) (b : Byte) : (s.setReg x b).v = s.v.set x.val b x.isLt := rfl
@[simp] theorem setReg_i (s : State) (x : RegIx) (b : Byte) : (s.setReg x b).i = s.i := rfl
@[simp] theorem setReg_pc (s : State) (x : RegIx) (b : Byte) : (s.setReg x b).pc = s.pc := rfl
@[simp] theorem setReg_stack (s : State) (x : RegIx) (b : Byte) : (s.setReg x b).stack = s.stack := rfl
@[simp] theorem setReg_sp (s : State) (x : RegIx) (b : Byte) : (s.setReg x b).sp = s.sp := rfl
@[simp] theorem setReg_dt (s : State) (x : RegIx) (b : Byte) : (s.setReg x b).dt = s.dt := rfl
@[simp] theorem setReg_st (s : State) (x : RegIx) (b : Byte) : (s.setReg x b).st = s.st := rfl
@[simp] theorem setReg_key (s : State) (x : RegIx) (b : Byte) : (s.setReg x b).key = s.key := rfl
@[simp] theorem setReg_fb (s : State) (x : RegIx) (b : Byte) : (s.setReg x b).fb = s.fb := rfl
@[simp] theorem setReg_chg (s : State) (x : RegIx) (b : Byte) : (s.setReg x b).chg = s.chg := rfl
@[simp] theorem setReg_waitV (s : State) (x : RegIx) (b : Byte) : (s.setReg x b).waitV = s.waitV := rfl
@[simp] theorem setReg_waitX (s : State) (x : RegIx) (b : Byte) : (s.setReg x b).waitX = s.waitX := rfl
@[simp] theorem setReg_draws (s : State) (x : RegIx) (b : Byte) : (s.setReg x b).draws = s.draws := rfl

@[simp] theorem setFlag_mem (s : State) (b : Byte) : (s.setFlag b).mem = s.mem := rfl
@[simp] theorem setFlag_v (s : State) (b : Byte) : (s.setFlag b).v = s.v.set vf.val b vf.isLt := rfl
@[simp] theorem setFlag_i (s : State) (b : Byte) : (s.setFlag b).i = s.i := rfl
@[simp] theorem setFlag_pc (s : State) (b : Byte) : (s.setFlag b).pc = s.pc := rfl
@[simp] theorem setFlag_stack (s : State) (b : Byte) : (s.setFlag b).stack = s.stack := rfl
@[simp] theorem setFlag_sp (s : State) (b : Byte) : (s.setFlag b).sp = s.sp := rfl
@[simp] theorem setFlag_dt (s : State) (b : Byte) : (s.setFlag b).dt = s.dt := rfl
@[simp] theorem setFlag_st (s : State) (b : Byte) : (s.setFlag b).st = s.st := rfl
@[simp] theorem setFlag_key (s : State) (b : Byte) : (s.setFlag b).key = s.key := rfl
@[simp] theorem setFlag_fb (s : State) (b : Byte) : (s.setFlag b).fb = s.fb := rfl
@[simp] theorem setFlag_chg (s : State) (b : Byte) : (s.setFlag b).chg = s.chg := rfl
@[simp] theorem setFlag_waitV (s : State) (b : Byte) : (s.setFlag b).waitV = s.waitV := rfl
@[simp] theorem setFlag_waitX (s : State) (b : Byte) : (s.setFlag b).waitX = s.waitX := rfl
@[simp] theorem setFlag_draws (s : State) (b : Byte) : (s.setFlag b).draws = s.draws := rfl

@[simp] theorem setPc_mem (s : State) (a : Word) : (s.setPc a).mem = s.mem := rfl
@[simp] theorem setPc_v (s : State) (a : Word) : (s.setPc a).v = s.v := rfl
@[simp] theorem setPc_i (s : State) (a : Word) : (s.setPc a).i = s.i := rfl
@[simp] theorem setPc_pc (s : State) (a : Word) : (s.setPc a).pc = a := rfl
@[simp] theorem setPc_stack (s : State) (a : Word) : (s.setPc a).stack = s.stack := rfl
@[simp] theorem setPc_sp (s : State) (a : Word) : (s.setPc a).sp = s.sp := rfl
@[simp] theorem setPc_dt (s : State) (a : Word) : (s.setPc a).dt = s.dt := rfl
@[simp] theorem setPc_st (s : State) (a : Word) : (s.setPc a).st = s.st := rfl
@[simp] theorem setPc_key (s : State) (a : Word) : (s.setPc a).key = s.key := rfl
@[simp] theorem setPc_fb (s : State) (a : Word) : (s.setPc a).fb = s.fb := rfl
@[simp] theorem setPc_chg (s : State) (a : Word) : (s.setPc a).chg = s.chg := rfl
@[simp] theorem setPc_waitV (s : State) (a : Word) : (s.setPc a).waitV = s.waitV := rfl
@[simp] theorem setPc_waitX (s : State) (a : Word) : (s.setPc a).waitX = s.waitX := rfl
@[simp] theorem setPc_draws (s : State) (a : Word) : (s.setPc a).draws = s.draws := rfl

@[simp] theorem setI_mem (s : State) (a : Word) : (s.setI a).mem = s.mem := rfl
@[simp] theorem setI_v (s : State) (a : Word) : (s.setI a).v = s.v := rfl
@[simp] theorem setI_i (s : State) (a : Word) : (s.setI a).i = a := rfl
@[simp] theorem setI_pc (s : State) (a : Word) : (s.setI a).pc = s.pc := rfl
@[simp] theorem setI_stack (s : State) (a : Word) : (s.setI a).stack = s.stack := rfl
@[simp] theorem setI_sp (s : State) (a : Word) : (s.setI a).sp = s.sp := rfl
@[simp] theorem setI_dt (s : State) (a : Word) : (s.setI a).dt = s.dt := rfl
@[simp] theorem setI_st (s : State) (a : Word) : (s.setI a).st = s.st := rfl
@[simp] theorem setI_key (s : State) (a : Word) : (s.setI a).key = s.key := rfl
@[simp] theorem setI_fb (s : State) (a : Word) : (s.setI a).fb = s.fb := rfl
@[simp] theorem setI_chg (s : State) (a : Word) : (s.setI a).chg = s.chg := rfl
@[simp] theorem setI_waitV (s : State) (a : Word) : (s.setI a).waitV = s.waitV := rfl
@[simp] theorem setI_waitX (s : State) (a : Word) : (s.setI a).waitX = s.waitX := rfl
@[simp] theorem setI_draws (s : State) (a : Word) : (s.setI a).draws = s.draws := rfl

@[simp] theorem setDt_mem (s : State) (b : Byte) : (s.setDt b).mem = s.mem := rfl
@[simp] theorem setDt_v (s : State) (b : Byte) : (s.setDt b).v = s.v := rfl
@[simp] theorem setDt_i (s : State) (b : Byte) : (s.setDt b).i = s.i := rfl
@[simp] theorem setDt_pc (s : State) (b : Byte) : (s.setDt b).pc = s.pc := rfl
@[simp] theorem setDt_stack (s : State) (b : Byte) : (s.setDt b).stack = s.stack := rfl
@[simp] theorem setDt_sp (s : State) (b : Byte) : (s.setDt b).sp = s.sp := rfl
@[simp] theorem setDt_dt (s : State) (b : Byte) : (s.setDt b).dt = b := rfl
@[simp] theorem setDt_st (s : State) (b : Byte) : (s.setDt b).st = s.st := rfl
@[simp] theorem setDt_key (s : State) (b : Byte) : (s.setDt b).key = s.key := rfl
@[simp] theorem setDt_fb (s : State) (b : Byte) : (s.setDt b).fb = s.fb := rfl
@[simp] theorem setDt_chg (s : State) (b : Byte) : (s.setDt b).chg = s.chg := rfl
@[simp] theorem setDt_waitV (s : State) (b : Byte) : (s.setDt b).waitV = s.waitV := rfl
@[simp] theorem setDt_waitX (s : State) (b : Byte) : (s.setDt b).waitX = s.waitX := rfl
@[simp] theorem setDt_draws (s : State) (b : Byte) : (s.setDt b).draws = s.draws := rfl

@[simp] theorem setSt_mem (s : State) (b : Byte) : (s.setSt b).mem = s.mem := rfl
@[simp] theorem setSt_v (s : State) (b : Byte) : (s.setSt b).v = s.v := rfl
@[simp] theorem setSt_i (s : State) (b : Byte) : (s.setSt b).i = s.i := rfl
@[simp] theorem setSt_pc (s : State) (b : Byte) : (s.setSt b).pc = s.pc := rfl
@[simp] theorem setSt_stack (s : State) (b : Byte) : (s.setSt b).stack = s.stack := rfl
@[simp] theorem setSt_sp (s : State) (b : Byte) : (s.setSt b).sp = s.sp := rfl
@[simp] theorem setSt_dt (s : State) (b : Byte) : (s.setSt b).dt = s.dt := rfl
@[simp] theorem setSt_st (s : State) (b : Byte) : (s.setSt b).st = b := rfl
@[simp] theorem setSt_key (s : State) (b : Byte) : (s.setSt b).key = s.key := rfl
@[simp] theorem setSt_fb (s : State) (b : Byte) : (s.setSt b).fb = s.fb := rfl
@[simp] theorem setSt_chg (s : State) (b : Byte) : (s.setSt b).chg = s.chg := rfl
@[simp] theorem setSt_waitV (s : State) (b : Byte) : (s.setSt b).waitV = s.waitV := rfl
@[simp] theorem setSt_waitX (s : State) (b : Byte) : (s.setSt b).waitX = s.waitX := rfl
@[simp] theorem setSt_draws (s : State) (b : Byte) : (s.setSt b).draws = s.draws := rfl

@[simp] theorem setRegs_mem (s : State) (v : Vector Byte 16) : (s.setRegs v).mem = s.mem := rfl
@[simp] theorem setRegs_v (s : State) (v : Vector Byte 16) : (s.setRegs v).v = v := rfl
@[simp] theorem setRegs_i (s : State) (v : Vector Byte 16) : (s.setRegs v).i = s.i := rfl
@[simp] theorem setRegs_pc (s : State) (v : Vector Byte 16) : (s.setRegs v).pc = s.pc := rfl
@[simp] theorem setRegs_stack (s : State) (v : Vector Byte 16) : (s.setRegs v).stack = s.stack := rfl
@[simp] theorem setRegs_sp (s : State) (v : Vector Byte 16) : (s.setRegs v).sp = s.sp := rfl
@[simp] theorem setRegs_dt (s : State) (v : Vector Byte 16) : (s.setRegs v).dt = s.dt := rfl
@[simp] theorem setRegs_st (s : State) (v : Vector Byte 16) : (s.setRegs v).st = s.st := rfl
@[simp] theorem setRegs_key (s : State) (v : Vector Byte 16) : (s.setRegs v).key = s.key := rfl
@[simp] theorem setRegs_fb (s : State) (v : Vector Byte 16) : (s.setRegs v).fb = s.fb := rfl
@[simp] theorem setRegs_chg (s : State) (v : Vector Byte 16) : (s.setRegs v).chg = s.chg := rfl
@[simp] theorem setRegs_waitV (s : State) (v : Vector Byte 16) : (s.setRegs v).waitV = s.waitV := rfl
@[simp] theorem setRegs_waitX (s : State) (v : Vector Byte 16) : (s.setRegs v).waitX = s.waitX := rfl
@[simp] theorem setRegs_draws (s : State) (v : Vector Byte 16) : (s.setRegs v).draws = s.draws := rfl

@[simp] theorem setMem_mem (s : State) (m : Memory) : (s.setMem m).mem = m := rfl
@[simp] theorem setMem_v (s : State) (m : Memory) : (s.setMem m).v = s.v := rfl
@[simp] theorem setMem_i (s : State) (m : Memory) : (s.setMem m).i = s.i := rfl
@[simp] theorem setMem_pc (s : State) (m : Memory) : (s.setMem m).pc = s.pc := rfl
@[simp] theorem setMem_stack (s : State) (m : Memory) : (s.setMem m).stack = s.stack := rfl
@[simp] theorem setMem_sp (s : State) (m : Memory) : (s.setMem m).sp = s.sp := rfl
@[simp] theorem setMem_dt (s : State) (m : Memory) : (s.setMem m).dt = s.dt := rfl
@[simp] theorem setMem_st (s : State) (m : Memory) : (s.setMem m).st = s.st := rfl
@[simp] theorem setMem_key (s : State) (m : Memory) : (s.setMem m).key = s.key := rfl
@[simp] theorem setMem_fb (s : State) (m : Memory) : (s.setMem m).fb = s.fb := rfl
@[simp] theorem setMem_chg (s : State) (m : Memory) : (s.setMem m).chg = s.chg := rfl
@[simp] theorem setMem_waitV (s : State) (m : Memory) : (s.setMem m).waitV = s.waitV := rfl
@[simp] theorem setMem_waitX (s : State) (m : Memory) : (s.setMem m).waitX = s.waitX := rfl
@[simp] theorem setMem_draws (s : State) (m : Memory) : (s.setMem m).draws = s.draws := rfl

@[simp] theorem setScreen_mem (s : State) (fb : FrameBuffer) : (s.setScreen fb).mem = s.mem := rfl
@[simp] theorem setScreen_v (s : State) (fb : FrameBuffer) : (s.setScreen fb).v = s.v := rfl
@[simp] theorem setScreen_i (s : State) (fb : FrameBuffer) : (s.setScreen fb).i = s.i := rfl
@[simp] theorem setScreen_pc (s : State) (fb : FrameBuffer) : (s.setScreen fb).pc = s.pc := rfl
@[simp] theorem setScreen_stack (s : State) (fb : FrameBuffer) : (s.setScreen fb).stack = s.stack := rfl
@[simp] theorem setScreen_sp (s : State) (fb : FrameBuffer) : (s.setScreen fb).sp = s.sp := rfl
@[simp] theorem setScreen_dt (s : State) (fb : FrameBuffer) : (s.setScreen fb).dt = s.dt := rfl
@[simp] theorem setScreen_st (s : State) (fb : FrameBuffer) : (s.setScreen fb).st = s.st := rfl
@[simp] theorem setScreen_key (s : State) (fb : FrameBuffer) : (s.setScreen fb).key = s.key := rfl
@[simp] theorem setScreen_fb (s : State) (fb : FrameBuffer) : (s.setScreen fb).fb = fb := rfl
@[simp] theorem setScreen_chg (s : State) (fb : FrameBuffer) : (s.setScreen fb).chg = true := rfl
@[simp] theorem setScreen_waitV (s : State) (fb : FrameBuffer) : (s.setScreen fb).waitV = s.waitV := rfl
@[simp] theorem setScreen_waitX (s : State) (fb : FrameBuffer) : (s.setScreen fb).waitX = s.waitX := rfl
@[simp] theorem setScreen_draws (s : State) (fb : FrameBuffer) : (s.setScreen fb).draws = s.draws := rfl

@[simp] theorem setKeyBit_mem (s : State) (k : KeyIx) (p : Bool) : (s.setKeyBit k p).mem = s.mem := rfl
@[simp] theorem setKeyBit_v (s : State) (k : KeyIx) (p : Bool) : (s.setKeyBit k p).v = s.v := rfl
@[simp] theorem setKeyBit_i (s : State) (k : KeyIx) (p : Bool) : (s.setKeyBit k p).i = s.i := rfl
@[simp] theorem setKeyBit_pc (s : State) (k : KeyIx) (p : Bool) : (s.setKeyBit k p).pc = s.pc := rfl
@[simp] theorem setKeyBit_stack (s : State) (k : KeyIx) (p : Bool) : (s.setKeyBit k p).stack = s.stack := rfl
@[simp] theorem setKeyBit_sp (s : State) (k : KeyIx) (p : Bool) : (s.setKeyBit k p).sp = s.sp := rfl
@[simp] theorem setKeyBit_dt (s : State) (k : KeyIx) (p : Bool) : (s.setKeyBit k p).dt = s.dt := rfl
@[simp] theorem setKeyBit_st (s : State) (k : KeyIx) (p : Bool) : (s.setKeyBit k p).st = s.st := rfl
@[simp] theorem setKeyBit_key (s : State) (k : KeyIx) (p : Bool) : (s.setKeyBit k p).key = s.key.set k.val p k.isLt := rfl
@[simp] theorem setKeyBit_fb (s : State) (k : KeyIx) (p : Bool) : (s.setKeyBit k p).fb = s.fb := rfl
@[simp] theorem setKeyBit_chg (s : State) (k : KeyIx) (p : Bool) : (s.setKeyBit k p).chg = s.chg := rfl
@[simp] theorem setKeyBit_waitV (s : State) (k : KeyIx) (p : Bool) : (s.setKeyBit k p).waitV = s.waitV := rfl
@[simp] theorem setKeyBit_waitX (s : State) (k : KeyIx) (p : Bool) : (s.setKeyBit k p).waitX = s.waitX := rfl
@[simp] theorem setKeyBit_draws (s : State) (k : KeyIx) (p : Bool) : (s.setKeyBit k p).draws = s.draws := rfl

@[simp] theorem clearChanged_mem (s : State) : s.clearChanged.mem = s.mem := rfl
@[simp] theorem clearChanged_v (s : State) : s.clearChanged.v = s.v := rfl
@[simp] theorem clearChanged_i (s : State) : s.clearChanged.i = s.i := rfl
@[simp] theorem clearChanged_pc (s : State) : s.clearChanged.pc = s.pc := rfl
@[simp] theorem clearChanged_stack (s : State) : s.clearChanged.stack = s.stack := rfl
@[simp] theorem clearChanged_sp (s : State) : s.clearChanged.sp = s.sp := rfl
@[simp] theorem clearChanged_dt (s : State) : s.clearChanged.dt = s.dt := rfl
@[simp] theorem clearChanged_st (s : State) : s.clearChanged.st = s.st := rfl
@[simp] theorem clearChanged_key (s : State) : s.clearChanged.key = s.key := rfl
@[simp] theorem clearChanged_fb (s : State) : s.clearChanged.fb = s.fb := rfl
@[simp] theorem clearChanged_chg (s : State) : s.clearChanged.chg = false := rfl
@[simp] theorem clearChanged_waitV (s : State) : s.clearChanged.waitV = s.waitV := rfl
@[simp] theorem clearChanged_waitX (s : State) : s.clearChanged.waitX = s.waitX := rfl
@[simp] theorem clearChanged_draws (s : State) : s.clearChanged.draws = s.draws := rfl

@[simp] theorem beginWait_mem (s : State) (x : RegIx) : (s.beginWait x).mem = s.mem := rfl
@[simp] theorem beginWait_v (s : State) (x : RegIx) : (s.beginWait x).v = s.v := rfl
@[simp] theorem beginWait_i (s : State) (x : RegIx) : (s.beginWait x).i = s.i := rfl
@[simp] theorem beginWait_pc (s : State) (x : RegIx) : (s.beginWait x).pc = s.pc := rfl
@[simp] theorem beginWait_stack (s : State) (x : RegIx) : (s.beginWait x).stack = s.stack := rfl
@[simp] theorem beginWait_sp (s : State) (x : RegIx) : (s.beginWait x).sp = s.sp := rfl
@[simp] theorem beginWait_dt (s : State) (x : RegIx) : (s.beginWait x).dt = s.dt := rfl
@[simp] theorem beginWait_st (s : State) (x : RegIx) : (s.beginWait x).st = s.st := rfl
@[simp] theorem beginWait_key (s : State) (x : RegIx) : (s.beginWait x).key = s.key := rfl
@[simp] theorem beginWait_fb (s : State) (x : RegIx) : (s.beginWait x).fb = s.fb := rfl
@[simp] theorem beginWait_chg (s : State) (x : RegIx) : (s.beginWait x).chg = s.chg := rfl
@[simp] theorem beginWait_waitV (s : State) (x : RegIx) : (s.beginWait x).waitV = true := rfl
@[simp] theorem beginWait_waitX (s : State) (x : RegIx) : (s.beginWait x).waitX = x := rfl
@[simp] theorem beginWait_draws (s : State) (x : RegIx) : (s.beginWait x).draws = s.draws := rfl

@[simp] theorem endWait_mem (s : State) : s.endWait.mem = s.mem := rfl
@[simp] theorem endWait_v (s : State) : s.endWait.v = s.v := rfl
@[simp] theorem endWait_i (s : State) : s.endWait.i = s.i := rfl
@[simp] theorem endWait_pc (s : State) : s.endWait.pc = s.pc := rfl
@[simp] theorem endWait_stack (s : State) : s.endWait.stack = s.stack := rfl
@[simp] theorem endWait_sp (s : State) : s.endWait.sp = s.sp := rfl
@[simp] theorem endWait_dt (s : State) : s.endWait.dt = s.dt := rfl
@[simp] theorem endWait_st (s : State) : s.endWait.st = s.st := rfl
@[simp] theorem endWait_key (s : State) : s.endWait.key = s.key := rfl
@[simp] theorem endWait_fb (s : State) : s.endWait.fb = s.fb := rfl
@[simp] theorem endWait_chg (s : State) : s.endWait.chg = s.chg := rfl
@[simp] theorem endWait_waitV (s : State) : s.endWait.waitV = false := rfl
@[simp] theorem endWait_waitX (s : State) : s.endWait.waitX = s.waitX := rfl
@[simp] theorem endWait_draws (s : State) : s.endWait.draws = s.draws := rfl

@[simp] theorem byteAt_setReg (s : State) (x : RegIx) (b : Byte) (c : Nat) : (s.setReg x b).byteAt c = s.byteAt c := rfl
@[simp] theorem byteAt_setFlag (s : State) (b : Byte) (c : Nat) : (s.setFlag b).byteAt c = s.byteAt c := rfl
@[simp] theorem reg_setPc (s : State) (a : Word) (r : RegIx) : (s.setPc a).reg r = s.reg r := rfl
@[simp] theorem byteAt_setPc (s : State) (a : Word) (c : Nat) : (s.setPc a).byteAt c = s.byteAt c := rfl
@[simp] theorem reg_setI (s : State) (a : Word) (r : RegIx) : (s.setI a).reg r = s.reg r := rfl
@[simp] theorem byteAt_setI (s : State) (a : Word) (c : Nat) : (s.setI a).byteAt c = s.byteAt c := rfl
@[simp] theorem reg_setDt (s : State) (b : Byte) (r : RegIx) : (s.setDt b).reg r = s.reg r := rfl
@[simp] theorem byteAt_setDt (s : State) (b : Byte) (c : Nat) : (s.setDt b).byteAt c = s.byteAt c := rfl
@[simp] theorem reg_setSt (s : State) (b : Byte) (r : RegIx) : (s.setSt b).reg r = s.reg r := rfl
@[simp] theorem byteAt_setSt (s : State) (b : Byte) (c : Nat) : (s.setSt b).byteAt c = s.byteAt c := rfl
@[simp] theorem byteAt_setRegs (s : State) (v : Vector Byte 16) (c : Nat) : (s.setRegs v).byteAt c = s.byteAt c := rfl
@[simp] theorem reg_setMem (s : State) (m : Memory) (r : RegIx) : (s.setMem m).reg r = s.reg r := rfl
@[simp] theorem reg_setScreen (s : State) (fb : FrameBuffer) (r : RegIx) : (s.setScreen fb).reg r = s.reg r := rfl
@[simp] theorem byteAt_setScreen (s : State) (fb : FrameBuffer) (c : Nat) : (s.setScreen fb).byteAt c = s.byteAt c := rfl
@[simp] theorem reg_setKeyBit (s : State) (k : KeyIx) (p : Bool) (r : RegIx) : (s.setKeyBit k p).reg r = s.reg r := rfl
@[simp] theorem byteAt_setKeyBit (s : State) (k : KeyIx) (p : Bool) (c : Nat) : (s.setKeyBit k p).byteAt c = s.byteAt c := rfl
@[simp] theorem reg_clearChanged (s : State) (r : RegIx) : s.clearChanged.reg r = s.reg r := rfl
@[simp] theorem byteAt_clearChanged (s : State) (c : Nat) : s.clearChanged.byteAt c = s.byteAt c := rfl
@[simp] theorem reg_beginWait (s : State) (x : RegIx) (r : RegIx) : (s.beginWait x).reg r = s.reg r := rfl
@[simp] theorem byteAt_beginWait (s : State) (x : RegIx) (c : Nat) : (s.beginWait x).byteAt c = s.byteAt c := rfl
@[simp] theorem reg_endWait (s : State) (r : RegIx) : s.endWait.reg r = s.reg r := rfl
@[simp] theorem byteAt_endWait (s : State) (c : Nat) : s.endWait.byteAt c = s.byteAt c := rfl

/-- Reading a register after writing one. -/
@[simp] theorem reg_setReg (s : State) (x : RegIx) (b : Byte) (r : RegIx) :
    (s.setReg x b).reg r = if r = x then b else s.reg r := by
  simp only [reg, setReg, Vector.get_eq_getElem, Vector.getElem_set, Fin.ext_iff, eq_comm]

/-- Reading a register after writing VF. -/
@[simp] theorem reg_setFlag (s : State) (b : Byte) (r : RegIx) :
    (s.setFlag b).reg r = if r = vf then b else s.reg r := reg_setReg s vf b r

/-- Reading a register after all were replaced. -/
@[simp] theorem reg_setRegs (s : State) (v : Vector Byte 16) (r : RegIx) : (s.setRegs v).reg r = v.get r := rfl

/-- Reading a byte after memory was replaced. -/
@[simp] theorem byteAt_setMem (s : State) (m : Memory) (a : Nat) : (s.setMem m).byteAt a = m.read a := rfl

end Sys2Proof.Machine.State
end

