-- ==== Sys2Proof/Laws/Ops.lean ====
section
/-! SUPPORT. For each shared operation, once, everything it can do; later proofs cite these and unfold nothing. -/

namespace Sys2Proof.Machine

/-! ### Bounds and memory -/

theorem inBounds_iff (a n : Nat) : inBounds a n ↔ n = 0 ∨ a + n ≤ Config.memSize := by
  simp only [inBounds, Config.maxAddr, Config.memSize]
  omega

theorem memRead_inBounds {s : State} {a n : Nat} (h : inBounds a n) :
    memRead s a n = .ok (s.mem.readBytes a n) := if_pos h

theorem memRead_outOfBounds {s : State} {a n : Nat} (h : ¬ inBounds a n) :
    memRead s a n = .error .memoryOverflow := if_neg h

/-- All that `memRead` can do. -/
theorem memRead_cases (s : State) (a n : Nat) :
    (inBounds a n ∧ memRead s a n = .ok (s.mem.readBytes a n)) ∨
    (¬ inBounds a n ∧ memRead s a n = .error .memoryOverflow) := by
  by_cases h : inBounds a n
  · exact .inl ⟨h, if_pos h⟩
  · exact .inr ⟨h, if_neg h⟩

theorem memWrite_inBounds {s : State} {a : Nat} {bytes : List Byte} (h : inBounds a bytes.length) :
    memWrite s a bytes = .ok (s.setMem (s.mem.writeBytes a bytes)) := if_pos h

theorem memWrite_outOfBounds {s : State} {a : Nat} {bytes : List Byte} (h : ¬ inBounds a bytes.length) :
    memWrite s a bytes = .error .memoryOverflow := if_neg h

/-- All that `memWrite` can do. -/
theorem memWrite_cases (s : State) (a : Nat) (bytes : List Byte) :
    (inBounds a bytes.length ∧ memWrite s a bytes = .ok (s.setMem (s.mem.writeBytes a bytes))) ∨
    (¬ inBounds a bytes.length ∧ memWrite s a bytes = .error .memoryOverflow) := by
  by_cases h : inBounds a bytes.length
  · exact .inl ⟨h, if_pos h⟩
  · exact .inr ⟨h, if_neg h⟩

/-- A written range in bounds keeps the canonical form. -/
theorem wf_writeBytes_inBounds {m : Memory} (hm : m.wf) {a : Nat} {bytes : List Byte}
    (h : inBounds a bytes.length) : (m.writeBytes a bytes).wf := by
  rcases (inBounds_iff a bytes.length).mp h with h0 | h1
  · rw [List.length_eq_zero_iff.mp h0]
    exact hm
  · exact Memory.wf_writeBytes bytes hm h1

/-- One byte of memory after a range in bounds was written. -/
theorem byteAt_writeBytes {s : State} (hm : s.mem.wf) {a : Nat} {bytes : List Byte}
    (h : inBounds a bytes.length) (b : Nat) :
    (s.setMem (s.mem.writeBytes a bytes)).byteAt b =
      if a ≤ b ∧ b < a + bytes.length then bytes.getD (b - a) 0 else s.byteAt b := by
  rcases (inBounds_iff a bytes.length).mp h with h0 | h1
  · rw [List.length_eq_zero_iff.mp h0, if_neg (by simp)]
    rfl
  · exact Memory.read_writeBytes bytes hm h1 b

/-! ### Stack -/

theorem pushStack_ok {s : State} (a : Word) (h : s.sp.val < 16) :
    pushStack s a =
      .ok { s with stack := s.stack.set s.sp.val a h, sp := ⟨s.sp.val + 1, Nat.succ_lt_succ h⟩ } := dif_pos h

theorem pushStack_full {s : State} (a : Word) (h : s.sp.val = 16) : pushStack s a = .error .stackOverflow :=
  dif_neg (by omega)

theorem popStack_empty {s : State} (h : s.sp.val = 0) : popStack s = .error .stackUnderflow := if_pos h

theorem popStack_ok {s : State} (h : s.sp.val ≠ 0) :
    popStack s =
      .ok (s.stack[s.sp.val - 1]'(by omega), { s with sp := ⟨s.sp.val - 1, by omega⟩ }) := if_neg h

/-! ### Registers -/

/-- Every register after a flag and a result were written: the result last. -/
@[simp] theorem reg_writeFlagThenReg (s : State) (f : Byte) (x : RegIx) (b : Byte) (r : RegIx) :
    (writeFlagThenReg s f x b).reg r = if r = x then b else if r = vf then f else s.reg r := by
  simp [writeFlagThenReg]

/-! A flag and a result touch nothing but the registers. -/

@[simp] theorem writeFlagThenReg_mem (s : State) (f : Byte) (x : RegIx) (b : Byte) : (writeFlagThenReg s f x b).mem = s.mem := rfl
@[simp] theorem writeFlagThenReg_i (s : State) (f : Byte) (x : RegIx) (b : Byte) : (writeFlagThenReg s f x b).i = s.i := rfl
@[simp] theorem writeFlagThenReg_pc (s : State) (f : Byte) (x : RegIx) (b : Byte) : (writeFlagThenReg s f x b).pc = s.pc := rfl
@[simp] theorem writeFlagThenReg_stack (s : State) (f : Byte) (x : RegIx) (b : Byte) : (writeFlagThenReg s f x b).stack = s.stack := rfl
@[simp] theorem writeFlagThenReg_sp (s : State) (f : Byte) (x : RegIx) (b : Byte) : (writeFlagThenReg s f x b).sp = s.sp := rfl
@[simp] theorem writeFlagThenReg_dt (s : State) (f : Byte) (x : RegIx) (b : Byte) : (writeFlagThenReg s f x b).dt = s.dt := rfl
@[simp] theorem writeFlagThenReg_st (s : State) (f : Byte) (x : RegIx) (b : Byte) : (writeFlagThenReg s f x b).st = s.st := rfl
@[simp] theorem writeFlagThenReg_key (s : State) (f : Byte) (x : RegIx) (b : Byte) : (writeFlagThenReg s f x b).key = s.key := rfl
@[simp] theorem writeFlagThenReg_fb (s : State) (f : Byte) (x : RegIx) (b : Byte) : (writeFlagThenReg s f x b).fb = s.fb := rfl
@[simp] theorem writeFlagThenReg_chg (s : State) (f : Byte) (x : RegIx) (b : Byte) : (writeFlagThenReg s f x b).chg = s.chg := rfl
@[simp] theorem writeFlagThenReg_waitV (s : State) (f : Byte) (x : RegIx) (b : Byte) : (writeFlagThenReg s f x b).waitV = s.waitV := rfl
@[simp] theorem writeFlagThenReg_waitX (s : State) (f : Byte) (x : RegIx) (b : Byte) : (writeFlagThenReg s f x b).waitX = s.waitX := rfl
@[simp] theorem writeFlagThenReg_draws (s : State) (f : Byte) (x : RegIx) (b : Byte) : (writeFlagThenReg s f x b).draws = s.draws := rfl

/-- Every register after some were loaded from bytes. -/
@[simp] theorem reg_loadRegs (s : State) (bytes : List Byte) (r : RegIx) :
    (loadRegs s bytes).reg r = bytes.getD r.val (s.reg r) := by
  show (Vector.ofFn fun j : Fin 16 => bytes.getD j.val (s.reg j)).get r = _
  rw [Vector.get_eq_getElem, Vector.getElem_ofFn]

/-! Loading registers touches nothing but the registers. -/

@[simp] theorem loadRegs_mem (s : State) (bytes : List Byte) : (loadRegs s bytes).mem = s.mem := rfl
@[simp] theorem loadRegs_i (s : State) (bytes : List Byte) : (loadRegs s bytes).i = s.i := rfl
@[simp] theorem loadRegs_pc (s : State) (bytes : List Byte) : (loadRegs s bytes).pc = s.pc := rfl
@[simp] theorem loadRegs_stack (s : State) (bytes : List Byte) : (loadRegs s bytes).stack = s.stack := rfl
@[simp] theorem loadRegs_sp (s : State) (bytes : List Byte) : (loadRegs s bytes).sp = s.sp := rfl
@[simp] theorem loadRegs_dt (s : State) (bytes : List Byte) : (loadRegs s bytes).dt = s.dt := rfl
@[simp] theorem loadRegs_st (s : State) (bytes : List Byte) : (loadRegs s bytes).st = s.st := rfl
@[simp] theorem loadRegs_key (s : State) (bytes : List Byte) : (loadRegs s bytes).key = s.key := rfl
@[simp] theorem loadRegs_fb (s : State) (bytes : List Byte) : (loadRegs s bytes).fb = s.fb := rfl
@[simp] theorem loadRegs_chg (s : State) (bytes : List Byte) : (loadRegs s bytes).chg = s.chg := rfl
@[simp] theorem loadRegs_waitV (s : State) (bytes : List Byte) : (loadRegs s bytes).waitV = s.waitV := rfl
@[simp] theorem loadRegs_waitX (s : State) (bytes : List Byte) : (loadRegs s bytes).waitX = s.waitX := rfl
@[simp] theorem loadRegs_draws (s : State) (bytes : List Byte) : (loadRegs s bytes).draws = s.draws := rfl

theorem length_regsUpTo (s : State) (x : RegIx) : (regsUpTo s x).length = x.val + 1 := by
  simp [regsUpTo]

/-- The j-th byte of `[V[0], ..., V[X]]`. -/
theorem getD_regsUpTo (s : State) (x r : RegIx) (h : r.val ≤ x.val) (d : Byte) :
    (regsUpTo s x).getD r.val d = s.reg r := by
  have hr : r.val < 16 := r.isLt
  simp [regsUpTo, State.reg, Vector.get_eq_getElem, Nat.lt_succ_of_le h]

/-! ### Skips -/

theorem skipIf_true (s : State) : skipIf true s = s.setPc (s.pc + 2) := rfl

theorem skipIf_false (s : State) : skipIf false s = s := rfl

/-- A skip changes PC and nothing else. -/
theorem skipIf_eq (c : Bool) (s : State) : skipIf c s = s.setPc (if c then s.pc + 2 else s.pc) := by
  cases c <;> rfl

/-! ### Framebuffer -/

/-- Reading a pixel after writing one. -/
@[simp] theorem FrameBuffer.pixel_setPixel (fb : FrameBuffer) (r : Fin 32) (c : Fin 64) (b : Bool)
    (r' : Fin 32) (c' : Fin 64) :
    (fb.setPixel r c b).pixel r' c' = if r' = r ∧ c' = c then b else fb.pixel r' c' := by
  simp only [FrameBuffer.setPixel, FrameBuffer.pixel, Vector.get_eq_getElem, Vector.getElem_set, Fin.ext_iff]
  by_cases h : r.val = r'.val
  · simp [h, Vector.getElem_set, eq_comm]
  · simp [h, eq_comm]

/-- Every pixel of the cleared framebuffer is off. -/
@[simp] theorem FrameBuffer.pixel_clear (r : Fin 32) (c : Fin 64) : FrameBuffer.clear.pixel r c = false := by
  simp [FrameBuffer.clear, FrameBuffer.pixel, Vector.get_eq_getElem]

/-- Two framebuffers with the same pixels are the same. -/
theorem FrameBuffer.ext_pixel {f g : FrameBuffer} (h : ∀ r c, f.pixel r c = g.pixel r c) : f = g := by
  refine Vector.ext fun r hr => Vector.ext fun c hc => ?_
  simpa [FrameBuffer.pixel, Vector.get_eq_getElem] using h ⟨r, hr⟩ ⟨c, hc⟩

/-- A pixel after one step of the scan: toggled exactly when the sprite bit is set and lands on it. -/
theorem pixel_drawPixel (rows : List Byte) (x y : Nat) (acc : FrameBuffer × Bool) (j c : Nat)
    (r : Fin 32) (q : Fin 64) :
    (drawPixel rows x y acc j c).1.pixel r q =
      (acc.1.pixel r q ^^ ((rows.getD j 0).getLsbD (7 - c) && decide (r = Fin.ofNat 32 (y + j) ∧ q = Fin.ofNat 64 (x + c)))) := by
  unfold drawPixel
  split
  · next h =>
    simp only [h, FrameBuffer.pixel_setPixel, Bool.true_and]
    split
    · next hrq => rw [decide_eq_true hrq, hrq.1, hrq.2]
    · next hrq => rw [decide_eq_false hrq, Bool.xor_false]
  · next h => rw [Bool.eq_false_of_not_eq_true h, Bool.false_and, Bool.xor_false]

/-- `hit` after one step of the scan. -/
theorem hit_drawPixel (rows : List Byte) (x y : Nat) (acc : FrameBuffer × Bool) (j c : Nat) :
    (drawPixel rows x y acc j c).2 =
      (acc.2 || ((rows.getD j 0).getLsbD (7 - c) && acc.1.pixel (Fin.ofNat 32 (y + j)) (Fin.ofNat 64 (x + c)))) := by
  unfold drawPixel
  split <;> simp_all

end Sys2Proof.Machine
end

