-- ==== Sys2Proof/Laws/Step.lean ====
section
/-! SUPPORT. What the cycle can do, said once: its three branches, the tick, the host's view. -/

namespace Sys2Proof.Machine

/-! ### Tick -/

/-- R127 as a number: one less, floored at 0. -/
theorem tickTimer_toNat (b : Byte) : (tickTimer b).toNat = b.toNat - 1 := by
  unfold tickTimer
  split
  · next h => simp [h]
  · next h =>
    have hb : b.toNat ≠ 0 := fun h0 => h (BitVec.eq_of_toNat_eq (by simpa using h0))
    have := b.isLt
    rw [BitVec.toNat_sub]
    simp
    omega

@[simp] theorem timerTick_dt (s : State) : (timerTick s).dt = tickTimer s.dt := rfl
@[simp] theorem timerTick_st (s : State) : (timerTick s).st = tickTimer s.st := rfl
@[simp] theorem timerTick_mem (s : State) : (timerTick s).mem = s.mem := rfl
@[simp] theorem timerTick_v (s : State) : (timerTick s).v = s.v := rfl
@[simp] theorem timerTick_i (s : State) : (timerTick s).i = s.i := rfl
@[simp] theorem timerTick_pc (s : State) : (timerTick s).pc = s.pc := rfl
@[simp] theorem timerTick_stack (s : State) : (timerTick s).stack = s.stack := rfl
@[simp] theorem timerTick_sp (s : State) : (timerTick s).sp = s.sp := rfl
@[simp] theorem timerTick_key (s : State) : (timerTick s).key = s.key := rfl
@[simp] theorem timerTick_fb (s : State) : (timerTick s).fb = s.fb := rfl
@[simp] theorem timerTick_chg (s : State) : (timerTick s).chg = s.chg := rfl
@[simp] theorem timerTick_waitV (s : State) : (timerTick s).waitV = s.waitV := rfl
@[simp] theorem timerTick_waitX (s : State) : (timerTick s).waitX = s.waitX := rfl
@[simp] theorem timerTick_draws (s : State) : (timerTick s).draws = s.draws := rfl
@[simp] theorem reg_timerTick (s : State) (r : RegIx) : (timerTick s).reg r = s.reg r := rfl
@[simp] theorem byteAt_timerTick (s : State) (a : Nat) : (timerTick s).byteAt a = s.byteAt a := rfl

/-! ### Key-wait branch -/

/-- The key found is pressed and every lower one is released. -/
theorem lowestPressed_some {s : State} {k : KeyIx} :
    lowestPressed s = some k ↔ s.key.get k = true ∧ ∀ j, j < k → s.key.get j = false := by
  unfold lowestPressed
  rw [List.find?_eq_some_iff_getElem]
  constructor
  · rintro ⟨hk, n, hn, hnk, hlt⟩
    refine ⟨hk, fun j hj => ?_⟩
    have hn16 : n < 16 := by simpa using hn
    have hkn : k.val = n := by rw [← hnk]; simp
    have := hlt j.val (by rw [← hkn]; exact hj)
    simpa using this
  · rintro ⟨hk, hlt⟩
    refine ⟨hk, k.val, by simp, by simp, fun j hj => ?_⟩
    have := hlt ⟨j, by omega⟩ hj
    simpa using this

/-- No key is found exactly when every key is released. -/
theorem lowestPressed_none {s : State} : lowestPressed s = none ↔ ∀ k, s.key.get k = false := by
  simp [lowestPressed, List.find?_eq_none]

/-! ### Fetch -/

theorem fetchWord_inBounds {s : State} (h : s.pc.toNat ≤ 0xFFE) :
    fetchWord s = .ok (wordOfBytes (s.byteAt s.pc.toNat) (s.byteAt (s.pc.toNat + 1))) := by
  refine if_pos ((inBounds_iff _ _).mpr (.inr ?_))
  simp only [Config.memSize]
  omega

theorem fetchWord_outOfBounds {s : State} (h : 0xFFE < s.pc.toNat) : fetchWord s = .error .memoryOverflow := by
  refine if_neg fun hb => ?_
  have := (inBounds_iff _ _).mp hb
  simp only [Config.memSize] at this
  omega

/-- What fetching an instruction can answer. -/
theorem fetchInstr_cases (s : State) :
    (0xFFE < s.pc.toNat ∧ fetchInstr s = .error .memoryOverflow) ∨
    (s.pc.toNat ≤ 0xFFE ∧ ∃ w, fetchWord s = .ok w ∧
      ((∃ i, decode w = .ok i ∧ fetchInstr s = .ok i) ∨
       (∃ e, decode w = .error e ∧ fetchInstr s = .error .decodeError))) := by
  by_cases h : s.pc.toNat ≤ 0xFFE
  · refine .inr ⟨h, _, fetchWord_inBounds h, ?_⟩
    unfold fetchInstr
    rw [fetchWord_inBounds h]
    dsimp only
    split
    · next i hi => exact .inl ⟨i, hi, rfl⟩
    · next e he => exact .inr ⟨e, he, rfl⟩
  · refine .inl ⟨by omega, ?_⟩
    unfold fetchInstr
    rw [fetchWord_outOfBounds (by omega)]

/-- An instruction is fetched only in bounds. -/
theorem pc_le_of_fetchInstr {s : State} {i : Instr} (h : fetchInstr s = .ok i) : s.pc.toNat ≤ 0xFFE := by
  rcases fetchInstr_cases s with ⟨-, he⟩ | ⟨hp, -⟩
  · rw [he] at h; cases h
  · exact hp

/-! ### The cycle -/

theorem step_waiting {s : State} (h : s.waitV = true) : step s = .next (timerTick (waitBranch s)) := if_pos h

theorem step_fetchError {s : State} {e : Fault} (h : s.waitV = false) (hf : fetchInstr s = .error e) :
    step s = .fault e := by
  simp [step, cycle, h, hf, raise]

theorem step_exec {s : State} {i : Instr} (h : s.waitV = false) (hf : fetchInstr s = .ok i) :
    step s = finish (exec i (advancePc s)) := by
  simp [step, cycle, h, hf]

/-- All that a step can do. -/
theorem step_cases (s : State) :
    (s.waitV = true ∧ step s = .next (timerTick (waitBranch s))) ∨
    (s.waitV = false ∧ ∃ e, fetchInstr s = .error e ∧ step s = .fault e) ∨
    (s.waitV = false ∧ ∃ i, fetchInstr s = .ok i ∧ step s = finish (exec i (advancePc s))) := by
  cases hw : s.waitV
  · cases hf : fetchInstr s with
    | error e => exact .inr (.inl ⟨rfl, e, rfl, step_fetchError hw hf⟩)
    | ok i => exact .inr (.inr ⟨rfl, i, rfl, step_exec hw hf⟩)
  · exact .inl ⟨rfl, step_waiting hw⟩

theorem finish_next {o : Result} {u : State} : finish o = .next u ↔ ∃ t, o = .next t ∧ u = timerTick t := by
  cases o <;> simp [finish, raise, eq_comm]

theorem finish_fault {o : Result} {e : Fault} : finish o = .fault e ↔ o = .fault e := by
  cases o <;> simp [finish, raise]

theorem finish_refused {o : Result} {r : Refusal} : finish o = .refused r ↔ o = .refused r := by
  cases o <;> simp [finish, raise]

/-- Every next state of a step, with where it came from. -/
theorem step_next {s t : State} (h : step s = .next t) :
    (s.waitV = true ∧ t = timerTick (waitBranch s)) ∨
    (s.waitV = false ∧ ∃ i u, fetchInstr s = .ok i ∧ exec i (advancePc s) = .next u ∧ t = timerTick u) := by
  rcases step_cases s with ⟨hw, hs⟩ | ⟨hw, e, hf, hs⟩ | ⟨hw, i, hf, hs⟩ <;> rw [hs] at h
  · cases h; exact .inl ⟨hw, rfl⟩
  · cases h
  · obtain ⟨u, hu, rfl⟩ := finish_next.mp h
    exact .inr ⟨hw, i, u, hf, hu, rfl⟩

/-- A run of one step more begins with the step, on any machine. -/
theorem run_succ (M : Host.Core) (k : Nat) (s : M.State) :
    M.run (k + 1) s =
      match M.step s with
      | .next t => M.run k t
      | .fault e => .fault e
      | .refused r => .refused r := rfl

/-- A run of this machine whose first step answers a next state. -/
theorem run_next {s t : State} (k : Nat) (h : step s = .next t) : core.run (k + 1) s = core.run k t := by
  have hr := run_succ core k s
  rw [show core.step s = .next t from h] at hr
  exact hr

/-! ### The host's view -/

theorem executeCycle_next {s t : State} (h : step s = .next t) :
    executeCycle s = (t, .ok (outcomeAfter t)) := by simp [executeCycle, h]

theorem executeCycle_fault {s : State} {e : Fault} (h : step s = .fault e) :
    executeCycle s = (s, .err e) := by simp [executeCycle, h]

end Sys2Proof.Machine
end

