-- ==== Sys2Proof/Laws/Frame.lean ====
section
/-! SUPPORT. Frames: from equal fields to `SameExcept`, and how frames compose. -/

namespace Sys2Proof.Machine

/-- A part is the same when its fields are equal. -/
theorem Part.same_regs {s t : State} (h : t.v = s.v) : Part.regs.same s t := fun r => by simp [State.reg, h]
theorem Part.same_memory {s t : State} (h : t.mem = s.mem) : Part.memory.same s t := fun a => by simp [State.byteAt, h]
theorem Part.same_stack {s t : State} (h : t.stack = s.stack) (h' : t.sp = s.sp) : Part.stack.same s t :=
  ⟨fun k => by rw [h], h'⟩
theorem Part.same_keys {s t : State} (h : t.key = s.key) : Part.keys.same s t := fun k => by rw [h]
theorem Part.same_pixels {s t : State} (h : t.fb = s.fb) : Part.pixels.same s t := fun r c => by rw [h]

theorem Part.same_refl (p : Part) (s : State) : p.same s s := by
  cases p <;> simp [Part.same]

theorem Part.same_trans {p : Part} {s t u : State} (h : p.same s t) (h' : p.same t u) : p.same s u := by
  cases p <;> simp_all [Part.same]

theorem SameExcept.refl (ps : List Part) (s : State) : SameExcept ps s s := fun p _ => p.same_refl s

theorem SameExcept.trans {ps : List Part} {s t u : State} (h : SameExcept ps s t) (h' : SameExcept ps t u) :
    SameExcept ps s u := fun p hp => Part.same_trans (h p hp) (h' p hp)

/-- Leaving out more parts says less. -/
theorem SameExcept.mono {ps qs : List Part} {s t : State} (h : SameExcept ps s t) (hs : ps ⊆ qs) :
    SameExcept qs s t := fun p hp => h p fun hm => hp (hs hm)

/-- A frame, field by field: each part that is not left out has equal fields. -/
theorem SameExcept.of_fields {ps : List Part} {s t : State}
    (v : .regs ∉ ps → t.v = s.v) (i : .index ∉ ps → t.i = s.i) (pc : .pc ∉ ps → t.pc = s.pc)
    (stack : .stack ∉ ps → t.stack = s.stack ∧ t.sp = s.sp) (mem : .memory ∉ ps → t.mem = s.mem)
    (dt : .delay ∉ ps → t.dt = s.dt) (st : .sound ∉ ps → t.st = s.st) (key : .keys ∉ ps → t.key = s.key)
    (fb : .pixels ∉ ps → t.fb = s.fb) (chg : .changed ∉ ps → t.chg = s.chg)
    (wait : .wait ∉ ps → t.waitV = s.waitV ∧ t.waitX = s.waitX) (draws : .draws ∉ ps → t.draws = s.draws) :
    SameExcept ps s t := by
  intro p hp
  cases p with
  | regs => exact Part.same_regs (v hp)
  | index => exact i hp
  | pc => exact pc hp
  | stack => exact Part.same_stack (stack hp).1 (stack hp).2
  | memory => exact Part.same_memory (mem hp)
  | delay => exact dt hp
  | sound => exact st hp
  | keys => exact Part.same_keys (key hp)
  | pixels => exact Part.same_pixels (fb hp)
  | changed => exact chg hp
  | wait => exact wait hp
  | draws => exact draws hp

end Sys2Proof.Machine
end

