-- ==== Sys2Proof/Laws/Exec.lean ====
section
/-! SUPPORT. What `exec` answers, instruction by instruction: the 28 that always complete as one equation each, the
six that can end in an error as the two things they can do. -/

namespace Sys2Proof.Machine

section
variable (s : State) (x y : RegIx) (kk : Byte) (nnn : Lit12) (n : Nibble)

/-! ### Instructions that always complete -/

theorem exec_cls : exec .cls s = .next (s.setScreen FrameBuffer.clear) := rfl
theorem exec_jp : exec (.jp nnn) s = .next (s.setPc (addrOf nnn)) := rfl
theorem exec_jpV0 : exec (.jpV0 nnn) s = .next (s.setPc (addrPlus nnn (s.reg 0))) := rfl
theorem exec_ldI : exec (.ldI nnn) s = .next (s.setI (addrOf nnn)) := rfl
theorem exec_ldKk : exec (.ldKk x kk) s = .next (s.setReg x kk) := rfl
theorem exec_addKk : exec (.addKk x kk) s = .next (s.setReg x (s.reg x + kk)) := rfl
theorem exec_ldVy : exec (.ldVy x y) s = .next (s.setReg x (s.reg y)) := rfl
theorem exec_orVy : exec (.orVy x y) s = .next (s.setReg x (s.reg x ||| s.reg y)) := rfl
theorem exec_andVy : exec (.andVy x y) s = .next (s.setReg x (s.reg x &&& s.reg y)) := rfl
theorem exec_xorVy : exec (.xorVy x y) s = .next (s.setReg x (s.reg x ^^^ s.reg y)) := rfl
theorem exec_ldVxDt : exec (.ldVxDt x) s = .next (s.setReg x s.dt) := rfl
theorem exec_ldVxK : exec (.ldVxK x) s = .next (s.beginWait x) := rfl
theorem exec_ldDtVx : exec (.ldDtVx x) s = .next (s.setDt (s.reg x)) := rfl
theorem exec_ldStVx : exec (.ldStVx x) s = .next (s.setSt (s.reg x)) := rfl
theorem exec_ldFVx : exec (.ldFVx x) s = .next (s.setI (glyphAddr (s.reg x))) := rfl

theorem exec_addIVx : exec (.addIVx x) s =
    .next ((s.setFlag (indexOverflowFlag s.i (s.reg x))).setI
      (BitVec.ofNat 16 ((s.i.toNat + (s.reg x).toNat) % 4096))) := rfl

theorem exec_rnd : exec (.rnd x kk) s =
    .next (({ s with draws := s.draws + 1 } : State).setReg x (Config.randIn s.draws &&& kk)) := rfl

theorem exec_seKk : exec (.seKk x kk) s = .next (s.setPc (if s.reg x = kk then s.pc + 2 else s.pc)) := by
  simp [exec, execSeKk, skipIf_eq]

theorem exec_sneKk : exec (.sneKk x kk) s = .next (s.setPc (if s.reg x = kk then s.pc else s.pc + 2)) := by
  simp [exec, execSneKk, skipIf_eq]

theorem exec_seVy : exec (.seVy x y) s = .next (s.setPc (if s.reg x = s.reg y then s.pc + 2 else s.pc)) := by
  simp [exec, execSeVy, skipIf_eq]

theorem exec_sneVy : exec (.sneVy x y) s = .next (s.setPc (if s.reg x = s.reg y then s.pc else s.pc + 2)) := by
  simp [exec, execSneVy, skipIf_eq]

theorem exec_skp : exec (.skp x) s = .next (s.setPc (if keyDown s x then s.pc + 2 else s.pc)) := by
  simp [exec, execSkp, skipIf_eq]

theorem exec_sknp : exec (.sknp x) s = .next (s.setPc (if keyDown s x then s.pc else s.pc + 2)) := by
  cases h : keyDown s x <;> simp [exec, execSknp, skipIf_eq, h]

theorem exec_addVy : exec (.addVy x y) s =
    .next (writeFlagThenReg s (carryFlag (s.reg x) (s.reg y)) x (s.reg x + s.reg y)) := rfl

theorem exec_sub : exec (.sub x y) s =
    .next (writeFlagThenReg s (noBorrowFlag (s.reg x) (s.reg y)) x (s.reg x - s.reg y)) := rfl

theorem exec_subn : exec (.subn x y) s =
    .next (writeFlagThenReg s (noBorrowFlag (s.reg y) (s.reg x)) x (s.reg y - s.reg x)) := rfl

theorem exec_shr : exec (.shr x y) s =
    .next (writeFlagThenReg s (shiftedOutRight (s.reg x)) x (s.reg x >>> 1)) := rfl

theorem exec_shl : exec (.shl x y) s =
    .next (writeFlagThenReg s (shiftedOutLeft (s.reg x)) x (s.reg x <<< 1)) := rfl

/-! ### Instructions that can end in an error -/

theorem exec_ret_cases :
    (s.sp.val = 0 ∧ exec .ret s = .fault .stackUnderflow) ∨
    (∃ _h : s.sp.val ≠ 0, exec .ret s =
      .next (({ s with sp := ⟨s.sp.val - 1, by omega⟩ } : State).setPc (s.stack[s.sp.val - 1]'(by omega)))) := by
  by_cases h : s.sp.val = 0
  · exact .inl ⟨h, by simp [exec, execRet, popStack_empty h, raise]⟩
  · exact .inr ⟨h, by simp [exec, execRet, popStack_ok h]⟩

theorem exec_call_cases :
    (s.sp.val = 16 ∧ exec (.call nnn) s = .fault .stackOverflow) ∨
    (∃ h : s.sp.val < 16, exec (.call nnn) s =
      .next (({ s with
        stack := s.stack.set s.sp.val s.pc h, sp := ⟨s.sp.val + 1, Nat.succ_lt_succ h⟩ } : State).setPc
          (addrOf nnn))) := by
  by_cases h : s.sp.val < 16
  · exact .inr ⟨h, by simp [exec, execCall, pushStack_ok _ h, npc]⟩
  · have h16 : s.sp.val = 16 := by omega
    exact .inl ⟨h16, by simp [exec, execCall, pushStack_full _ h16, raise]⟩

theorem exec_drw_cases :
    (0xFFF < s.i.toNat + n.toNat - 1 ∧ 1 ≤ n.toNat ∧ exec (.drw x y n) s = .fault .memoryOverflow) ∨
    ((n.toNat = 0 ∨ s.i.toNat + n.toNat - 1 ≤ 0xFFF) ∧
      exec (.drw x y n) s =
        .next ((s.setFlag (collisionFlag
          (drawSprite (s.mem.readBytes s.i.toNat n.toNat) (s.reg x).toNat (s.reg y).toNat s.fb).2)).setScreen
          (drawSprite (s.mem.readBytes s.i.toNat n.toNat) (s.reg x).toNat (s.reg y).toNat s.fb).1)) := by
  rcases memRead_cases s (indexAddr s) n.toNat with ⟨h, he⟩ | ⟨h, he⟩
  · refine .inr ⟨?_, by simp only [exec, execDrw, he]; rfl⟩
    simp only [inBounds, indexAddr, Config.maxAddr] at h
    omega
  · simp only [inBounds, indexAddr, Config.maxAddr] at h
    exact .inl ⟨by omega, by omega, by simp [exec, execDrw, he, raise]⟩

theorem exec_ldBVx_cases :
    (0xFFF < s.i.toNat + 2 ∧ exec (.ldBVx x) s = .fault .memoryOverflow) ∨
    (inBounds s.i.toNat (decimalDigits (s.reg x)).length ∧ s.i.toNat + 2 ≤ 0xFFF ∧
      exec (.ldBVx x) s = .next (s.setMem (s.mem.writeBytes s.i.toNat (decimalDigits (s.reg x))))) := by
  rcases memWrite_cases s (indexAddr s) (decimalDigits (s.reg x)) with ⟨h, he⟩ | ⟨h, he⟩
  · refine .inr ⟨h, ?_, by simp only [exec, execLdBVx, he]; rfl⟩
    simp only [inBounds, decimalDigits, indexAddr, Config.maxAddr, List.length_cons, List.length_nil] at h
    omega
  · simp only [inBounds, decimalDigits, indexAddr, Config.maxAddr, List.length_cons, List.length_nil] at h
    exact .inl ⟨by omega, by simp [exec, execLdBVx, he, raise]⟩

theorem exec_stInd_cases :
    (0xFFF < s.i.toNat + x.val ∧ exec (.stInd x) s = .fault .memoryOverflow) ∨
    (inBounds s.i.toNat (regsUpTo s x).length ∧ s.i.toNat + x.val ≤ 0xFFF ∧
      exec (.stInd x) s =
        .next ((s.setMem (s.mem.writeBytes s.i.toNat (regsUpTo s x))).setI (indexPast s x))) := by
  rcases memWrite_cases s (indexAddr s) (regsUpTo s x) with ⟨h, he⟩ | ⟨h, he⟩
  · refine .inr ⟨h, ?_, by simp only [exec, execStInd, he]; rfl⟩
    simp only [length_regsUpTo, inBounds, indexAddr, Config.maxAddr] at h
    omega
  · simp only [length_regsUpTo, inBounds, indexAddr, Config.maxAddr] at h
    exact .inl ⟨by omega, by simp [exec, execStInd, he, raise]⟩

theorem exec_ldInd_cases :
    (0xFFF < s.i.toNat + x.val ∧ exec (.ldInd x) s = .fault .memoryOverflow) ∨
    (s.i.toNat + x.val ≤ 0xFFF ∧
      exec (.ldInd x) s =
        .next ((loadRegs s (s.mem.readBytes s.i.toNat (x.val + 1))).setI (indexPast s x))) := by
  rcases memRead_cases s (indexAddr s) (x.val + 1) with ⟨h, he⟩ | ⟨h, he⟩
  · refine .inr ⟨?_, by simp only [exec, execLdInd, he]; rfl⟩
    simp only [inBounds, indexAddr, Config.maxAddr] at h
    omega
  · simp only [inBounds, indexAddr, Config.maxAddr] at h
    exact .inl ⟨by omega, by simp [exec, execLdInd, he, raise]⟩

/-- `I + X + 1` does not wrap when the range `I .. I + X` is inside memory. -/
theorem indexPast_toNat (h : s.i.toNat + x.val ≤ 0xFFF) : (indexPast s x).toNat = s.i.toNat + x.val + 1 := by
  simp only [indexPast, BitVec.toNat_add, BitVec.toNat_ofNat]
  omega

end

end Sys2Proof.Machine
end

