-- ==== Sys2Proof/Laws/PerInstr.lean ====
section
/-! SUPPORT. Facts made per instruction, about the instruction as syntax: one lemma per constructor.
`RowMatch`: the encoded word belongs to its row of R96, and the row builds the instruction back from it.
`WellFormedOperands`: the operands are in the ranges of R93. -/

namespace Sys2Proof.Laws.RowMatch

/-- The word of R104 is a word of some row of R96 that builds `i` from it. -/
def Statement (i : Instr) : Prop :=
  ∃ r ∈ opcodeRows, r.matchesWord (encode i) = true ∧ r.build (encode i) = i

/-- A row of the table, found by its place. -/
theorem ofRow {i : Instr} (k : Nat) (hk : k < opcodeRows.length)
    (hm : encode i &&& opcodeRows[k].mask = opcodeRows[k].val) (hb : opcodeRows[k].build (encode i) = i) :
    Statement i :=
  ⟨opcodeRows[k], List.getElem_mem hk, by simpa [Row.matchesWord] using hm, hb⟩

theorem cls : Statement .cls := ofRow 0 (by decide) (by decide) rfl
theorem ret : Statement .ret := ofRow 1 (by decide) (by decide) rfl

theorem jp (nnn : Lit12) : Statement (.jp nnn) :=
  ofRow 2 (by decide) (word_nnn_mask 0x1000 nnn (by decide)) (congrArg Instr.jp (word_nnn 0x1000 nnn (by decide)))

theorem call (nnn : Lit12) : Statement (.call nnn) :=
  ofRow 3 (by decide) (word_nnn_mask 0x2000 nnn (by decide)) (congrArg Instr.call (word_nnn 0x2000 nnn (by decide)))

theorem seKk (x : RegIx) (kk : Byte) : Statement (.seKk x kk) :=
  have h := word_xkk 0x3000 x kk (by decide)
  ofRow 4 (by decide) (word_xkk_mask 0x3000 x kk (by decide)) (congrArg₂ Instr.seKk h.1 h.2)

theorem sneKk (x : RegIx) (kk : Byte) : Statement (.sneKk x kk) :=
  have h := word_xkk 0x4000 x kk (by decide)
  ofRow 5 (by decide) (word_xkk_mask 0x4000 x kk (by decide)) (congrArg₂ Instr.sneKk h.1 h.2)

theorem seVy (x y : RegIx) : Statement (.seVy x y) :=
  have h := word_xys 0x5000 x y (by decide)
  ofRow 6 (by decide) (word_xys_mask 0x5000 x y (by decide) (by decide)) (congrArg₂ Instr.seVy h.1 h.2)

theorem ldKk (x : RegIx) (kk : Byte) : Statement (.ldKk x kk) :=
  have h := word_xkk 0x6000 x kk (by decide)
  ofRow 7 (by decide) (word_xkk_mask 0x6000 x kk (by decide)) (congrArg₂ Instr.ldKk h.1 h.2)

theorem addKk (x : RegIx) (kk : Byte) : Statement (.addKk x kk) :=
  have h := word_xkk 0x7000 x kk (by decide)
  ofRow 8 (by decide) (word_xkk_mask 0x7000 x kk (by decide)) (congrArg₂ Instr.addKk h.1 h.2)

theorem ldVy (x y : RegIx) : Statement (.ldVy x y) :=
  have h := word_xys 0x8000 x y (by decide)
  ofRow 9 (by decide) (word_xys_mask 0x8000 x y (by decide) (by decide)) (congrArg₂ Instr.ldVy h.1 h.2)

theorem orVy (x y : RegIx) : Statement (.orVy x y) :=
  have h := word_xys 0x8001 x y (by decide)
  ofRow 10 (by decide) (word_xys_mask 0x8001 x y (by decide) (by decide)) (congrArg₂ Instr.orVy h.1 h.2)

theorem andVy (x y : RegIx) : Statement (.andVy x y) :=
  have h := word_xys 0x8002 x y (by decide)
  ofRow 11 (by decide) (word_xys_mask 0x8002 x y (by decide) (by decide)) (congrArg₂ Instr.andVy h.1 h.2)

theorem xorVy (x y : RegIx) : Statement (.xorVy x y) :=
  have h := word_xys 0x8003 x y (by decide)
  ofRow 12 (by decide) (word_xys_mask 0x8003 x y (by decide) (by decide)) (congrArg₂ Instr.xorVy h.1 h.2)

theorem addVy (x y : RegIx) : Statement (.addVy x y) :=
  have h := word_xys 0x8004 x y (by decide)
  ofRow 13 (by decide) (word_xys_mask 0x8004 x y (by decide) (by decide)) (congrArg₂ Instr.addVy h.1 h.2)

theorem sub (x y : RegIx) : Statement (.sub x y) :=
  have h := word_xys 0x8005 x y (by decide)
  ofRow 14 (by decide) (word_xys_mask 0x8005 x y (by decide) (by decide)) (congrArg₂ Instr.sub h.1 h.2)

theorem shr (x y : RegIx) : Statement (.shr x y) :=
  have h := word_xys 0x8006 x y (by decide)
  ofRow 15 (by decide) (word_xys_mask 0x8006 x y (by decide) (by decide)) (congrArg₂ Instr.shr h.1 h.2)

theorem subn (x y : RegIx) : Statement (.subn x y) :=
  have h := word_xys 0x8007 x y (by decide)
  ofRow 16 (by decide) (word_xys_mask 0x8007 x y (by decide) (by decide)) (congrArg₂ Instr.subn h.1 h.2)

theorem shl (x y : RegIx) : Statement (.shl x y) :=
  have h := word_xys 0x800E x y (by decide)
  ofRow 17 (by decide) (word_xys_mask 0x800E x y (by decide) (by decide)) (congrArg₂ Instr.shl h.1 h.2)

theorem sneVy (x y : RegIx) : Statement (.sneVy x y) :=
  have h := word_xys 0x9000 x y (by decide)
  ofRow 18 (by decide) (word_xys_mask 0x9000 x y (by decide) (by decide)) (congrArg₂ Instr.sneVy h.1 h.2)

theorem ldI (nnn : Lit12) : Statement (.ldI nnn) :=
  ofRow 19 (by decide) (word_nnn_mask 0xA000 nnn (by decide)) (congrArg Instr.ldI (word_nnn 0xA000 nnn (by decide)))

theorem jpV0 (nnn : Lit12) : Statement (.jpV0 nnn) :=
  ofRow 20 (by decide) (word_nnn_mask 0xB000 nnn (by decide)) (congrArg Instr.jpV0 (word_nnn 0xB000 nnn (by decide)))

theorem rnd (x : RegIx) (kk : Byte) : Statement (.rnd x kk) :=
  have h := word_xkk 0xC000 x kk (by decide)
  ofRow 21 (by decide) (word_xkk_mask 0xC000 x kk (by decide)) (congrArg₂ Instr.rnd h.1 h.2)

theorem drw (x y : RegIx) (n : Nibble) : Statement (.drw x y n) :=
  have h := word_xyn 0xD000 x y n (by decide)
  ofRow 22 (by decide) (word_xyn_mask 0xD000 x y n (by decide))
    (congr (congrArg₂ Instr.drw h.1 h.2.1) h.2.2)

theorem skp (x : RegIx) : Statement (.skp x) :=
  ofRow 23 (by decide) (word_xss_mask 0xE09E x (by decide) (by decide)) (congrArg Instr.skp (word_xss 0xE09E x (by decide)))

theorem sknp (x : RegIx) : Statement (.sknp x) :=
  ofRow 24 (by decide) (word_xss_mask 0xE0A1 x (by decide) (by decide)) (congrArg Instr.sknp (word_xss 0xE0A1 x (by decide)))

theorem ldVxDt (x : RegIx) : Statement (.ldVxDt x) :=
  ofRow 25 (by decide) (word_xss_mask 0xF007 x (by decide) (by decide)) (congrArg Instr.ldVxDt (word_xss 0xF007 x (by decide)))

theorem ldVxK (x : RegIx) : Statement (.ldVxK x) :=
  ofRow 26 (by decide) (word_xss_mask 0xF00A x (by decide) (by decide)) (congrArg Instr.ldVxK (word_xss 0xF00A x (by decide)))

theorem ldDtVx (x : RegIx) : Statement (.ldDtVx x) :=
  ofRow 27 (by decide) (word_xss_mask 0xF015 x (by decide) (by decide)) (congrArg Instr.ldDtVx (word_xss 0xF015 x (by decide)))

theorem ldStVx (x : RegIx) : Statement (.ldStVx x) :=
  ofRow 28 (by decide) (word_xss_mask 0xF018 x (by decide) (by decide)) (congrArg Instr.ldStVx (word_xss 0xF018 x (by decide)))

theorem addIVx (x : RegIx) : Statement (.addIVx x) :=
  ofRow 29 (by decide) (word_xss_mask 0xF01E x (by decide) (by decide)) (congrArg Instr.addIVx (word_xss 0xF01E x (by decide)))

theorem ldFVx (x : RegIx) : Statement (.ldFVx x) :=
  ofRow 30 (by decide) (word_xss_mask 0xF029 x (by decide) (by decide)) (congrArg Instr.ldFVx (word_xss 0xF029 x (by decide)))

theorem ldBVx (x : RegIx) : Statement (.ldBVx x) :=
  ofRow 31 (by decide) (word_xss_mask 0xF033 x (by decide) (by decide)) (congrArg Instr.ldBVx (word_xss 0xF033 x (by decide)))

theorem stInd (x : RegIx) : Statement (.stInd x) :=
  ofRow 32 (by decide) (word_xss_mask 0xF055 x (by decide) (by decide)) (congrArg Instr.stInd (word_xss 0xF055 x (by decide)))

theorem ldInd (x : RegIx) : Statement (.ldInd x) :=
  ofRow 33 (by decide) (word_xss_mask 0xF065 x (by decide) (by decide)) (congrArg Instr.ldInd (word_xss 0xF065 x (by decide)))

end Sys2Proof.Laws.RowMatch

namespace Sys2Proof.Laws.WellFormedOperands

/-- The operands are in the ranges the format admits. -/
def Statement (i : Instr) : Prop := i.wellFormed = true

theorem reg_le (x : RegIx) : x.val ≤ 15 := Nat.le_of_lt_succ x.isLt
theorem byte_le (k : Byte) : k.toNat ≤ 0xFF := Nat.le_of_lt_succ k.isLt
theorem lit12_le (a : Lit12) : a.toNat ≤ 0xFFF := Nat.le_of_lt_succ a.isLt
theorem nibble_le (n : Nibble) : n.toNat ≤ 15 := Nat.le_of_lt_succ n.isLt

theorem ofNnn (a : Lit12) : Format.nnn.admits { nnn := a.toNat } = true := by
  simp [Format.admits, lit12_le]

theorem ofXkk (x : RegIx) (k : Byte) : Format.xkk.admits { x := x.val, kk := k.toNat } = true := by
  simp [Format.admits, reg_le, byte_le]

theorem ofXys (x y : RegIx) : Format.xys.admits { x := x.val, y := y.val } = true := by
  simp [Format.admits, reg_le]

theorem ofXss (x : RegIx) : Format.xss.admits { x := x.val } = true := by
  simp [Format.admits, reg_le]

theorem cls : Statement .cls := rfl
theorem ret : Statement .ret := rfl
theorem jp (nnn : Lit12) : Statement (.jp nnn) := ofNnn nnn
theorem call (nnn : Lit12) : Statement (.call nnn) := ofNnn nnn
theorem seKk (x : RegIx) (kk : Byte) : Statement (.seKk x kk) := ofXkk x kk
theorem sneKk (x : RegIx) (kk : Byte) : Statement (.sneKk x kk) := ofXkk x kk
theorem seVy (x y : RegIx) : Statement (.seVy x y) := ofXys x y
theorem ldKk (x : RegIx) (kk : Byte) : Statement (.ldKk x kk) := ofXkk x kk
theorem addKk (x : RegIx) (kk : Byte) : Statement (.addKk x kk) := ofXkk x kk
theorem ldVy (x y : RegIx) : Statement (.ldVy x y) := ofXys x y
theorem orVy (x y : RegIx) : Statement (.orVy x y) := ofXys x y
theorem andVy (x y : RegIx) : Statement (.andVy x y) := ofXys x y
theorem xorVy (x y : RegIx) : Statement (.xorVy x y) := ofXys x y
theorem addVy (x y : RegIx) : Statement (.addVy x y) := ofXys x y
theorem sub (x y : RegIx) : Statement (.sub x y) := ofXys x y
theorem shr (x y : RegIx) : Statement (.shr x y) := ofXys x y
theorem subn (x y : RegIx) : Statement (.subn x y) := ofXys x y
theorem shl (x y : RegIx) : Statement (.shl x y) := ofXys x y
theorem sneVy (x y : RegIx) : Statement (.sneVy x y) := ofXys x y
theorem ldI (nnn : Lit12) : Statement (.ldI nnn) := ofNnn nnn
theorem jpV0 (nnn : Lit12) : Statement (.jpV0 nnn) := ofNnn nnn
theorem rnd (x : RegIx) (kk : Byte) : Statement (.rnd x kk) := ofXkk x kk
theorem drw (x y : RegIx) (n : Nibble) : Statement (.drw x y n) := by
  simp [Statement, Instr.wellFormed, Instr.format, Instr.rawOperands, Format.admits, reg_le, nibble_le]
theorem skp (x : RegIx) : Statement (.skp x) := ofXss x
theorem sknp (x : RegIx) : Statement (.sknp x) := ofXss x
theorem ldVxDt (x : RegIx) : Statement (.ldVxDt x) := ofXss x
theorem ldVxK (x : RegIx) : Statement (.ldVxK x) := ofXss x
theorem ldDtVx (x : RegIx) : Statement (.ldDtVx x) := ofXss x
theorem ldStVx (x : RegIx) : Statement (.ldStVx x) := ofXss x
theorem addIVx (x : RegIx) : Statement (.addIVx x) := ofXss x
theorem ldFVx (x : RegIx) : Statement (.ldFVx x) := ofXss x
theorem ldBVx (x : RegIx) : Statement (.ldBVx x) := ofXss x
theorem stInd (x : RegIx) : Statement (.stInd x) := ofXss x
theorem ldInd (x : RegIx) : Statement (.ldInd x) := ofXss x

end Sys2Proof.Laws.WellFormedOperands
end

