-- ==== Sys2Proof/Tests/Slice0.lean ====
section
/-! SUPPORT. Tests: words and results from spec/95_test_vectors.md (the vector's name stands in the comment), the
smoke tests of the operand check, and for every statement with hypotheses a state that meets them. -/

namespace Sys2Proof.Tests

open Sys2Proof.Machine

/-! ### Small states -/

/-- The state after reset with `w` placed at `pc`. -/
def ready (w : Nat) (pc : Word := 0x200) : State := ({ State.reset with pc := pc } : State).withFetchWord 16 w

/-- `s` with bytes placed in memory. -/
def place (s : State) (a : Nat) (bytes : List Byte) : State := s.setMem (s.mem.writeBytes a bytes)

/-- The step answers a next state, and it passes the check. -/
def stepTo (s : State) (p : State → Bool) : Bool :=
  match step s with
  | .next t => p t
  | _ => false

/-- The step ends in the error. -/
def stepErr (s : State) (e : Fault) : Bool :=
  match step s with
  | .fault f => f == e
  | _ => false

/-- These pixels, as (row, column), are on and those are off. -/
def shows (fb : FrameBuffer) (on off : List (Fin 32 × Fin 64)) : Bool :=
  on.all (fun p => fb.pixel p.1 p.2) && off.all (fun p => !fb.pixel p.1 p.2)

theorem of_stepTo {s : State} {p : State → Bool} (h : stepTo s p = true) : ∃ t, step s = .next t ∧ p t = true := by
  unfold stepTo at h
  split at h
  · next t ht => exact ⟨t, ht, h⟩
  · cases h

theorem of_stepErr {s : State} {e : Fault} (h : stepErr s e = true) : step s = .fault e := by
  unfold stepErr at h
  split at h
  · next f hf => rw [hf, eq_of_beq h]
  · cases h

/-! ### Decoding: every constructor from a word written out (spec/30_encoding.md R96; E1 to E18) -/

/-- Rows 1 to 9. E1, E2, E3, E4, E16; the programs P2 (220E, 70FF) and vectors F10, F12. -/
theorem test_decode_flow :
    decode 0x00E0 = .ok .cls ∧ decode 0x00EE = .ok .ret ∧ decode 0x1ABC = .ok (.jp 0xABC) ∧
    decode 0x220E = .ok (.call 0x20E) ∧ decode 0x3A42 = .ok (.seKk 0xA 0x42) ∧
    decode 0x432A = .ok (.sneKk 3 0x2A) ∧ decode 0x5120 = .ok (.seVy 1 2) ∧
    decode 0x6012 = .ok (.ldKk 0 0x12) ∧ decode 0x70FF = .ok (.addKk 0 0xFF) := by decide

/-- Rows 10 to 18. E5, E17 and vectors A6 to A12. -/
theorem test_decode_alu :
    decode 0x8120 = .ok (.ldVy 1 2) ∧ decode 0x8121 = .ok (.orVy 1 2) ∧ decode 0x8122 = .ok (.andVy 1 2) ∧
    decode 0x8123 = .ok (.xorVy 1 2) ∧ decode 0x8374 = .ok (.addVy 3 7) ∧ decode 0x81F5 = .ok (.sub 1 0xF) ∧
    decode 0x86A6 = .ok (.shr 6 0xA) ∧ decode 0x8127 = .ok (.subn 1 2) ∧ decode 0x840E = .ok (.shl 4 0) := by decide

/-- Rows 19 to 25. E6, E7, E18 and vectors F15, M1, F18, A19, K3. -/
theorem test_decode_middle :
    decode 0x9120 = .ok (.sneVy 1 2) ∧ decode 0xA123 = .ok (.ldI 0x123) ∧ decode 0xB300 = .ok (.jpV0 0x300) ∧
    decode 0xC30F = .ok (.rnd 3 0x0F) ∧ decode 0xD125 = .ok (.drw 1 2 5) ∧ decode 0xD000 = .ok (.drw 0 0 0) ∧
    decode 0xE19E = .ok (.skp 1) ∧ decode 0xE2A1 = .ok (.sknp 2) := by decide

/-- Rows 26 to 34. E8 and vectors T1, K7, T3, T5, M2, M3, M4, M6. -/
theorem test_decode_misc :
    decode 0xF207 = .ok (.ldVxDt 2) ∧ decode 0xF10A = .ok (.ldVxK 1) ∧ decode 0xFF15 = .ok (.ldDtVx 0xF) ∧
    decode 0xF018 = .ok (.ldStVx 0) ∧ decode 0xF11E = .ok (.addIVx 1) ∧ decode 0xF129 = .ok (.ldFVx 1) ∧
    decode 0xF133 = .ok (.ldBVx 1) ∧ decode 0xF755 = .ok (.stInd 7) ∧ decode 0xF265 = .ok (.ldInd 2) := by decide

/-- E9 to E15 and the further illegal words of section 2.1. -/
theorem test_decode_illegal :
    ([0x5121, 0x9121, 0x0000, 0x8128, 0xE19F, 0xF100, 0xFFFF, 0x00E1, 0x00FE, 0x0123, 0x512F, 0x8129, 0x812F, 0xE100,
      0xE1A0, 0xF10B, 0xF116, 0xF130, 0xF134, 0xF156, 0xF166, 0xF175, 0xF185, 0xF0F0, 0xF090] : List Word).all
        (fun w => decode w == .error .illegal) = true := by decide

/-- E16: the byte at the lower address is the high byte; fewer than two bytes hold no instruction. -/
theorem test_decodeBytes :
    decodeBytes [0x60, 0x12, 0xAA] = .ok (.ldKk 0 0x12, [0xAA]) ∧ decodeBytes [0x60] = .error .tooShort := by decide

/-- Words written out from R104's encodings: P3 (F265), E6, E17, S1 (7003). -/
theorem test_encode :
    encode (.ldInd 2) = 0xF265 ∧ encode (.drw 1 2 5) = 0xD125 ∧ encode (.shr 6 0xA) = 0x86A6 ∧
    encode (.addKk 0 3) = 0x7003 ∧ encodeBytes (.jp 0xABC) = [0x1A, 0xBC] := by decide

/-- The table word is laid out as memory holds it. -/
theorem test_decodeTableWord :
    decodeTableWord 16 0x8374 = some (.addVy 3 7) ∧ decodeTableWord 16 0x8128 = none := by decide

/-! ### The operand check: one ill-formed term for each check -/

theorem test_refuses_register_x :
    (Format.xkk.admits { x := 16, kk := 1 } || Format.xyn.admits { x := 16 } || Format.xys.admits { x := 16 } ||
      Format.xss.admits { x := 16 }) = false := by decide
theorem test_refuses_register_y : (Format.xyn.admits { y := 16 } || Format.xys.admits { y := 16 }) = false := by decide
theorem test_refuses_nibble : Format.xyn.admits { n := 16 } = false := by decide
theorem test_refuses_byte : Format.xkk.admits { x := 1, kk := 256 } = false := by decide
theorem test_refuses_address : Format.nnn.admits { nnn := 4096 } = false := by decide
theorem test_admits_limits :
    (Format.xyn.admits { x := 15, y := 15, n := 15 } && Format.xkk.admits { x := 15, kk := 255 } &&
      Format.nnn.admits { nnn := 4095 }) = true := by decide

/-! ### Control flow (section 2.2) -/

/-- F1. -/
theorem test_ret : stepTo { ready 0x00EE 0x300 with sp := 1, stack := State.reset.stack.set 0 0x206 }
    (fun t => t.pc == 0x206 && t.sp == 0 && t.stack[0] == 0x206) = true := by decide
/-- F2. -/
theorem test_ret_empty : stepErr (ready 0x00EE 0x300) .stackUnderflow = true := by decide
/-- F3. -/
theorem test_jp : stepTo (ready 0x1204 0x20A) (fun t => t.pc == 0x204) = true := by decide
/-- F6. -/
theorem test_call_last : stepTo { ready 0x2300 0xFFE with sp := 15 }
    (fun t => t.pc == 0x300 && t.sp == 16 && t.stack[15] == 0x1000) = true := by decide
/-- F7. -/
theorem test_call_full : stepErr { ready 0x2300 with sp := 16 } .stackOverflow = true := by decide
/-- F8, F9. -/
theorem test_seKk : stepTo ((ready 0x332A).setReg 3 0x2A) (fun t => t.pc == 0x204) = true ∧
    stepTo ((ready 0x332A).setReg 3 0x2B) (fun t => t.pc == 0x202) = true := by decide
/-- F10, F11. -/
theorem test_sneKk : stepTo ((ready 0x432A).setReg 3 0x2A) (fun t => t.pc == 0x202) = true ∧
    stepTo (ready 0x432A) (fun t => t.pc == 0x204) = true := by decide
/-- F12, F13. -/
theorem test_seVy : stepTo (((ready 0x5120 0x210).setReg 1 7).setReg 2 7) (fun t => t.pc == 0x214) = true ∧
    stepTo (((ready 0x5120 0x210).setReg 1 7).setReg 2 8) (fun t => t.pc == 0x212) = true := by decide
/-- F15, F16. -/
theorem test_sneVy : stepTo (((ready 0x9120 0x210).setReg 1 7).setReg 2 8) (fun t => t.pc == 0x214) = true ∧
    stepTo (((ready 0x9120 0x210).setReg 1 7).setReg 2 7) (fun t => t.pc == 0x212) = true := by decide
/-- F19. -/
theorem test_jpV0 : stepTo ((ready 0xBFFF).setReg 0 0xFF) (fun t => t.pc == 0x10FE) = true := by decide
/-- F20, F21b: a skip past the top of memory, a fetch from an odd address. -/
theorem test_pc_corners : stepTo (ready 0x3000 0xFFE) (fun t => t.pc == 0x1002) = true ∧
    stepTo (ready 0x6A07 0x301) (fun t => t.reg 0xA == 7 && t.pc == 0x303) = true := by decide
/-- X1, X3. -/
theorem test_fetch_overflow : stepErr { State.reset with pc := 0xFFF } .memoryOverflow = true ∧
    stepErr { State.reset with pc := 0xFFFF } .memoryOverflow = true := by decide

/-! ### Register load, ALU and random (section 2.3) -/

/-- A2. -/
theorem test_ldKk : stepTo (ready 0x6FAB) (fun t => t.reg 0xF == 0xAB && t.pc == 0x202) = true := by decide
/-- A4, A5. -/
theorem test_addKk : stepTo ((ready 0x7002).setReg 0 0xFF) (fun t => t.reg 0 == 1 && t.reg 0xF == 0) = true ∧
    stepTo ((ready 0x7F01).setReg 0xF 0xFF) (fun t => t.reg 0xF == 0) = true := by decide
/-- A6. -/
theorem test_ldVy : stepTo ((ready 0x8120).setReg 2 0x7C) (fun t => t.reg 1 == 0x7C) = true := by decide
/-- The start of A7 to A9. -/
def logicStart (w : Nat) : State := (((ready w).setReg 1 0xF0).setReg 2 0x3C).setReg 0xF 1
/-- A7. -/
theorem test_orVy : stepTo (logicStart 0x8121) (fun t => t.reg 1 == 0xFC && t.reg 0xF == 1) = true := by decide
/-- A8. -/
theorem test_andVy : stepTo (logicStart 0x8122) (fun t => t.reg 1 == 0x30 && t.reg 0xF == 1) = true := by decide
/-- A9. -/
theorem test_xorVy : stepTo (logicStart 0x8123) (fun t => t.reg 1 == 0xCC && t.reg 0xF == 1) = true := by decide
/-- A10c, A10f. -/
theorem test_addVy :
    stepTo ((((ready 0x8124).setReg 1 0x80).setReg 2 0x7F).setReg 0xF 1)
      (fun t => t.reg 1 == 0xFF && t.reg 0xF == 0) = true ∧
    stepTo (((ready 0x81F4).setReg 1 0x10).setReg 0xF 5) (fun t => t.reg 1 == 0x15 && t.reg 0xF == 0) = true := by
  decide
/-- A13. -/
theorem test_addVy_flag_lost : stepTo (((ready 0x8F14).setReg 0xF 0xF0).setReg 1 0x20)
    (fun t => t.reg 0xF == 0x10) = true := by decide
/-- A11a, A11c. -/
theorem test_sub :
    stepTo ((((ready 0x8125).setReg 1 0x10).setReg 2 0x20).setReg 0xF 1)
      (fun t => t.reg 1 == 0xF0 && t.reg 0xF == 0) = true ∧
    stepTo ((((ready 0x8125).setReg 1 0x33).setReg 2 0x33).setReg 0xF 1)
      (fun t => t.reg 1 == 0 && t.reg 0xF == 0) = true := by decide
/-- A14. -/
theorem test_sub_flag_lost : stepTo (((ready 0x8F15).setReg 0xF 5).setReg 1 3) (fun t => t.reg 0xF == 2) = true := by
  decide
/-- A12b. -/
theorem test_shr : stepTo (((ready 0x84A6).setReg 4 0x0B).setReg 0xA 0xF0)
    (fun t => t.reg 4 == 5 && t.reg 0xF == 1 && t.reg 0xA == 0xF0) = true := by decide
/-- A15. -/
theorem test_shr_flag_lost : stepTo ((ready 0x8F06).setReg 0xF 3) (fun t => t.reg 0xF == 1) = true := by decide
/-- A12e, A12f. -/
theorem test_subn :
    stepTo (((ready 0x8127).setReg 1 0x10).setReg 2 0x20) (fun t => t.reg 1 == 0x10 && t.reg 0xF == 1) = true ∧
    stepTo ((((ready 0x8127).setReg 1 7).setReg 2 5).setReg 0xF 1)
      (fun t => t.reg 1 == 0xFE && t.reg 0xF == 0) = true := by decide
/-- A16. -/
theorem test_subn_flag_lost : stepTo (((ready 0x8F17).setReg 0xF 5).setReg 1 3) (fun t => t.reg 0xF == 0xFE) = true := by
  decide
/-- A12h. -/
theorem test_shl : stepTo ((ready 0x840E).setReg 4 0xC1) (fun t => t.reg 4 == 0x82 && t.reg 0xF == 1) = true := by decide
/-- A17. -/
theorem test_shl_flag_lost : stepTo ((ready 0x8F0E).setReg 0xF 0x81) (fun t => t.reg 0xF == 2) = true := by decide
/-- R171: V3 is the drawn byte AND KK, whatever byte is drawn; one byte is drawn. -/
theorem test_rnd (s : State) :
    ∃ t, exec (.rnd 3 0x0F) s = .next t ∧ t.reg 3 = Config.randIn s.draws &&& 0x0F ∧ t.draws = s.draws + 1 :=
  ⟨_, exec_rnd s 3 0x0F, by simp, by simp⟩
/-- R171: no other register depends on the draw. -/
theorem test_rnd_step : stepTo (ready 0xC30F) (fun t => t.pc == 0x202 && t.reg 0xF == 0 && t.draws == 1) = true := by
  decide

/-! ### Index register and memory (section 2.4) -/

/-- M1. -/
theorem test_ldI : stepTo (ready 0xA123) (fun t => t.i == 0x123) = true := by decide
/-- M2b, M2f. -/
theorem test_addIVx :
    stepTo ((((ready 0xF11E).setI 0xFFF).setReg 1 1)) (fun t => t.i == 0 && t.reg 0xF == 1) = true ∧
    stepTo ((((ready 0xF11E).setI 0xF00).setReg 1 0xFF)) (fun t => t.i == 0xFFF && t.reg 0xF == 0) = true := by decide
/-- M2e, M2d. -/
theorem test_addIVx_corners :
    stepTo ((((ready 0xFF1E).setI 0xFFE).setReg 0xF 2)) (fun t => t.i == 0 && t.reg 0xF == 1) = true ∧
    stepTo ((((ready 0xF11E).setI 0x1000).setReg 0xF 7)) (fun t => t.i == 0 && t.reg 0xF == 1) = true := by decide
/-- M3a, M3b. -/
theorem test_ldFVx : stepTo ((ready 0xF129).setReg 1 0x0A) (fun t => t.i == 0x32) = true ∧
    stepTo ((ready 0xF129).setReg 1 0xFF) (fun t => t.i == 0x4FB) = true := by decide
/-- M4a. -/
theorem test_ldBVx : stepTo (((ready 0xF133).setReg 1 0xFE).setI 0x300)
    (fun t => t.byteAt 0x300 == 2 && t.byteAt 0x301 == 5 && t.byteAt 0x302 == 4 && t.i == 0x300) = true := by decide
/-- M4d. -/
theorem test_ldBVx_overflow : stepErr (((ready 0xF133).setReg 1 0x64).setI 0xFFE) .memoryOverflow = true := by decide
/-- M5. -/
theorem test_stInd :
    stepTo ((((((ready 0xF255).setReg 0 0x11).setReg 1 0x22).setReg 2 0x33).setReg 3 0x44).setI 0x400)
      (fun t => t.byteAt 0x400 == 0x11 && t.byteAt 0x401 == 0x22 && t.byteAt 0x402 == 0x33 && t.byteAt 0x403 == 0 &&
        t.i == 0x403) = true := by decide
/-- M7a, M7b. -/
theorem test_stInd_top :
    stepTo (((ready 0xF055).setReg 0 0x5A).setI 0xFFF) (fun t => t.byteAt 0xFFF == 0x5A && t.i == 0x1000) = true ∧
    stepErr (((ready 0xF155).setReg 0 0x5A).setI 0xFFF) .memoryOverflow = true := by decide
/-- M6. -/
theorem test_ldInd : stepTo ((place (ready 0xF265) 0x400 [0xAA, 0xBB, 0xCC, 0xDD]).setI 0x400)
    (fun t => t.reg 0 == 0xAA && t.reg 1 == 0xBB && t.reg 2 == 0xCC && t.reg 3 == 0 && t.i == 0x403) = true := by decide
/-- M8c, M8d. -/
theorem test_ldInd_corners : stepErr ((ready 0xF065).setI 0x1000) .memoryOverflow = true ∧
    stepTo (ready 0xF265) (fun t => t.reg 0 == 0xF0 && t.reg 1 == 0x90 && t.reg 2 == 0x90 && t.i == 3) = true := by decide

/-! ### Display (section 2.5) -/

/-- D1. -/
theorem test_cls : stepTo { ready 0x00E0 with fb := (FrameBuffer.clear.setPixel 0 0 true).setPixel 31 63 true }
    (fun t => shows t.fb [] [(0, 0), (31, 63)] && t.chg && t.reg 0xF == 0) = true := by decide +kernel
/-- The start of D6, D7 and D15: a sprite byte at 0x300. -/
def drawStart (sprite vx vy : Byte) : State :=
  (((place (ready 0xD011) 0x300 [sprite]).setI 0x300).setReg 0 vx).setReg 1 vy
/-- D15, D14: one pixel erased, one lit; N = 0 makes no access. -/
theorem test_drw_collides :
    stepTo { drawStart 0xC0 1 0 with fb := FrameBuffer.clear.setPixel 0 1 true }
      (fun t => shows t.fb [(0, 2)] [(0, 1)] && t.reg 0xF == 1) = true ∧
    stepTo (((ready 0xD010).setI 0x1000).setReg 0xF 9) (fun t => t.reg 0xF == 0 && t.chg) = true := by decide +kernel
/-- D10, D8: coordinates from the old VF; rows and columns wrap. -/
theorem test_drw_wraps :
    stepTo (((place (ready 0xDFF1) 0x300 [0x80]).setI 0x300).setReg 0xF 2)
      (fun t => shows t.fb [(2, 2)] [(0, 0)] && t.reg 0xF == 0) = true ∧
    stepTo ((((place (ready 0xD012) 0x300 [0x81, 0x81]).setI 0x300).setReg 0 0xFF).setReg 1 0xFF)
      (fun t => shows t.fb [(31, 63), (31, 6), (0, 63), (0, 6)] [(31, 0)]) = true := by decide +kernel

/-! ### Keypad and timers (sections 2.6, 2.7) -/

/-- K5, K2. -/
theorem test_skp : stepTo (((ready 0xE29E).setReg 2 0x17).setKeyBit 7 true) (fun t => t.pc == 0x204) = true ∧
    stepTo ((ready 0xE29E).setReg 2 7) (fun t => t.pc == 0x202) = true := by decide
/-- K3, K6. -/
theorem test_sknp : stepTo ((ready 0xE2A1).setReg 2 7) (fun t => t.pc == 0x204) = true ∧
    stepTo (((ready 0xE2A1).setReg 2 0xF0).setKeyBit 0 true) (fun t => t.pc == 0x202) = true := by decide
/-- K7, K11 cycle 1: the keys are not looked at. -/
theorem test_ldVxK : stepTo ((ready 0xF10A).setKeyBit 3 true)
    (fun t => t.waitV && t.waitX == 1 && t.pc == 0x202 && t.reg 1 == 0) = true := by decide
/-- K8, K9. -/
theorem test_wait :
    executeCycle { State.reset with pc := 0x206, waitV := true, waitX := 1 } =
      ({ State.reset with pc := 0x206, waitV := true, waitX := 1 }, .ok .awaitingKeyInput) ∧
    stepTo (({ State.reset with pc := 0x206, waitV := true, waitX := 1 } : State).setKeyBit 7 true |>.setKeyBit 9 true)
      (fun t => t.reg 1 == 7 && !t.waitV && t.pc == 0x206) = true := by decide
/-- T1, T2. -/
theorem test_ldVxDt : stepTo ((ready 0xF207).setDt 5) (fun t => t.reg 2 == 5 && t.dt == 4) = true ∧
    stepTo ((ready 0xF207).setReg 2 9) (fun t => t.reg 2 == 0 && t.dt == 0) = true := by decide
/-- T3, T4. -/
theorem test_ldDtVx : stepTo ((ready 0xF015).setReg 0 3) (fun t => t.dt == 2) = true ∧
    stepTo (((ready 0xF015).setReg 0 1).setDt 9) (fun t => t.dt == 0) = true := by decide
/-- T5. -/
theorem test_ldStVx : stepTo ((ready 0xF018).setReg 0 0x0A) (fun t => t.st == 9) = true := by decide
/-- T6. -/
theorem test_tick : stepTo (((ready 0x6000).setDt 1).setSt 0xFF) (fun t => t.dt == 0 && t.st == 0xFE) = true := by decide

/-! ### Errors and host operations (section 2.8) -/

/-- T7. -/
theorem test_decodeError : executeCycle ((State.reset.setDt 5).setSt 5) = ((State.reset.setDt 5).setSt 5, .err .decodeError) := by
  decide
/-- R237. -/
theorem test_codes : [outcomeCode .continued, outcomeCode .awaitingKeyInput] = [0, 1] ∧
    [Fault.memoryOverflow, .stackOverflow, .stackUnderflow, .decodeError, .romTooLarge].map faultCode = [1, 2, 3, 4, 5] := by
  decide
/-- X9. -/
theorem test_load : hostMove (.loadProgram [0xAA, 0xBB]) ({ State.reset with pc := 0x234 } : State) =
    { State.reset with pc := 0x234, mem := [(0x200, 0xAA), (0x201, 0xBB)] } := by decide
/-- X8, and the canonical form: writing what an unlisted address reads as lists nothing. -/
theorem test_load_nothing : hostMove (.loadProgram []) State.reset = State.reset ∧
    hostMove (.loadProgram [0, 0]) State.reset = State.reset := by decide
/-- X10. -/
theorem test_setKey : (setKey 5 true State.reset).key[5] = true ∧
    setKey 5 false (setKey 5 true State.reset) = State.reset := by decide
/-- X11, X12. -/
theorem test_flag_and_sound :
    takeChangedFlag { State.reset with chg := true } = (true, State.reset) ∧
    (takeChangedFlag State.reset).1 = false ∧ soundTimer (State.reset.setSt 9) = 9 := by decide
/-- R71: the glyphs end at 0x04F, and 0 follows. -/
theorem test_font : State.reset.byteAt 0 = 0xF0 ∧ State.reset.byteAt 0x4B = 0xF0 ∧ State.reset.byteAt 0x4F = 0x80 ∧
    State.reset.byteAt 0x50 = 0 := by decide

/-! ### Witnesses: states and operands that meet the hypotheses of each statement that has some -/

/-- The step answers a next state that passes the check, and begins by executing `i`. -/
def runsTo (s : State) (i : Instr) (p : State → Bool) : Bool :=
  !s.waitV && (match fetchInstr s with | .ok j => decide (j = i) | .error _ => false) && stepTo s p

theorem of_runsTo {s : State} {i : Instr} {p : State → Bool} (h : runsTo s i p = true) :
    Runs s i ∧ ∃ t, step s = .next t ∧ p t = true := by
  simp only [runsTo, Bool.and_eq_true, Bool.not_eq_true'] at h
  refine ⟨⟨h.1.1, ?_⟩, of_stepTo h.2⟩
  have hf := h.1.2
  split at hf
  · next j hj => rw [hj, of_decide_eq_true hf]
  · cases hf

/-- Waiting for a key with the given keys pressed. -/
def waiting (keys : List KeyIx) : State :=
  keys.foldl (fun s k => s.setKeyBit k true) { State.reset with pc := 0xFFF, waitV := true, waitX := 15 }

/-- `EncodeUndoesDecode`; and every row has a word, which is the hypothesis of every `WordsOf`. -/
theorem witness_EncodeUndoesDecode : decode 0x8374 = .ok (.addVy 3 7) := by decide
theorem witness_WordsOf : ∀ r ∈ opcodeRows, r.val &&& r.mask = r.val ∧ r.matchesWord r.val = true := by decide
theorem witness_OpcodeRowsAreDisjoint : opcodeRows[4].matchesWord 0x3A42 = true ∧
    opcodeRows.reverse.Perm opcodeRows := ⟨by decide, List.reverse_perm _⟩
/-- `IllegalWordsAreThoseOfTheTable`, words at the edges of its clauses. -/
theorem witness_IllegalWords :
    decode 0x00E1 = .error .illegal ∧ decode 0x0FFF = .error .illegal ∧ decode 0x500F = .error .illegal ∧
    decode 0x9FF1 = .error .illegal ∧ decode 0x8008 = .error .illegal ∧ decode 0x8FFF = .error .illegal ∧
    decode 0xE09F = .error .illegal ∧ decode 0xF066 = .error .illegal ∧ decode 0x800E = .ok (.shl 0 0) := by decide

/-- `StepRunsTheInstructionAtPc`, `FetchReadsTwoBytesBigEndian`: PC at 0xFFE and just above. -/
theorem witness_StepRuns : (ready 0x6012 0xFFE).waitV = false ∧ (ready 0x6012 0xFFE).pc.toNat ≤ 0xFFE ∧
    decode (wordOfBytes ((ready 0x6012 0xFFE).byteAt 0xFFE) ((ready 0x6012 0xFFE).byteAt 0xFFF)) = .ok (.ldKk 0 0x12) := by
  decide
theorem witness_FetchReads : (ready 0x6012 0xFFE).pc.toNat ≤ 0xFFE ∧
    0xFFE < ({ State.reset with pc := 0xFFF } : State).pc.toNat ∧ State.reset.waitV = false := by decide
theorem witness_WaitWithoutKey : (waiting []).waitV = true ∧ ∀ k, (waiting []).key.get k = false := by decide
theorem witness_WaitTakesTheLowestPressedKey :
    ((waiting [0]).waitV = true ∧ (waiting [0]).key.get 0 = true ∧ ∀ j, j < 0 → (waiting [0]).key.get j = false) ∧
    ((waiting [15]).key.get 15 = true ∧ ∀ j, j < 15 → (waiting [15]).key.get j = false) := by decide

/-- `TimersTickOncePerCycle`: FX15, FX18 and neither. -/
theorem witness_TimersTick :
    (Runs (ready 0xF015) (.ldDtVx 0) ∧ ∃ t, step (ready 0xF015) = .next t ∧ (t.pc == 0x202) = true) ∧
    (Runs (ready 0xF018) (.ldStVx 0) ∧ ∃ t, step (ready 0xF018) = .next t ∧ (t.pc == 0x202) = true) ∧
    (Runs (ready 0x6000) (.ldKk 0 0) ∧ ∃ t, step (ready 0x6000) = .next t ∧ (t.pc == 0x202) = true) :=
  ⟨of_runsTo (p := fun t => t.pc == 0x202) (by decide), of_runsTo (p := fun t => t.pc == 0x202) (by decide),
    of_runsTo (p := fun t => t.pc == 0x202) (by decide)⟩
/-- `AwaitingOutcomeExactlyWhenWaiting`: both ways to wait, and neither. -/
theorem witness_AwaitingOutcome :
    (Runs (ready 0xF10A) (.ldVxK 1) ∧ ∃ t, step (ready 0xF10A) = .next t ∧ t.waitV = true) ∧
    (executeCycle (waiting [])).2 = .ok .awaitingKeyInput ∧ (executeCycle (waiting [7])).2 = .ok .continued :=
  ⟨of_runsTo (p := fun t => t.waitV) (by decide), by decide, by decide⟩
/-- `OnlyRandomReadsTheDraws`: a state whose cycle executes another instruction. -/
theorem witness_OnlyRandom : ¬ ∃ x kk, Runs (ready 0x6000) (.rnd x kk) := by
  rintro ⟨x, kk, -, h⟩
  have h' : fetchInstr (ready 0x6000) = .ok (.ldKk 0 0) := by rfl
  rw [h'] at h
  cases h

/-- The five errors at the edges of their conditions. -/
theorem witness_DecodeError : step State.reset = .fault .decodeError := of_stepErr (by decide)
theorem witness_MemoryOverflow :
    step { State.reset with pc := 0xFFF } = .fault .memoryOverflow ∧
    step ((ready 0xD011).setI 0x1000) = .fault .memoryOverflow ∧
    step ((ready 0xF133).setI 0xFFE) = .fault .memoryOverflow ∧
    step ((ready 0xF155).setI 0xFFF) = .fault .memoryOverflow ∧
    step ((ready 0xFF65).setI 0xFF1) = .fault .memoryOverflow :=
  ⟨of_stepErr (by decide), of_stepErr (by decide), of_stepErr (by decide), of_stepErr (by decide),
    of_stepErr (by decide)⟩
theorem witness_StackErrors :
    step { ready 0x2300 with sp := 16 } = .fault .stackOverflow ∧ step (ready 0x00EE) = .fault .stackUnderflow :=
  ⟨of_stepErr (by decide), of_stepErr (by decide)⟩
theorem witness_RomTooLarge : 3584 < (List.replicate 3585 (0 : Byte)).length ∧
    (List.replicate 3584 (0 : Byte)).length ≤ 3584 := by rw [List.length_replicate, List.length_replicate]; decide
theorem witness_ErrorsLeaveTheState : step ((State.reset.setDt 5).setSt 5) = .fault .decodeError :=
  of_stepErr (by decide)

/-- `RegistersChangeOnlyByTheirWriters`: by an instruction, and in the key wait. -/
theorem witness_RegistersChange :
    (∃ t, step (ready 0x6005) = .next t ∧ (t.reg 0 != (ready 0x6005).reg 0) = true) ∧
    (∃ t, step (waiting [7]) = .next t ∧ (t.reg 15 != (waiting [7]).reg 15) = true) :=
  ⟨of_stepTo (p := fun t => t.reg 0 != (ready 0x6005).reg 0) (by decide),
    of_stepTo (p := fun t => t.reg 15 != (waiting [7]).reg 15) (by decide)⟩
/-- `MemoryChangesOnlyByStores`. -/
theorem witness_MemoryChanges : (((ready 0xF055).setReg 0 0x5A).setI 0xFFF).mem.wf ∧
    ∃ t, step (((ready 0xF055).setReg 0 0x5A).setI 0xFFF) = .next t ∧ (t.byteAt 0xFFF != 0) = true :=
  ⟨by decide, of_stepTo (p := fun t => t.byteAt 0xFFF != 0) (by decide)⟩
/-- `ControlStateChangesOnlyByItsWriters`: I, the stack with SP, PC, and PC in the key wait. -/
theorem witness_ControlStateChanges :
    (∃ t, step (ready 0xA123) = .next t ∧ (t.i != (ready 0xA123).i) = true) ∧
    (∃ t, step (ready 0x2300) = .next t ∧
      (t.stack != (ready 0x2300).stack && t.sp != (ready 0x2300).sp && t.pc != (ready 0x2300).pc + 2) = true) ∧
    (∃ t, step (waiting []) = .next t ∧ (t.pc == 0xFFF) = true) :=
  ⟨of_stepTo (p := fun t => t.i != (ready 0xA123).i) (by decide),
    of_stepTo (p := fun t => t.stack != (ready 0x2300).stack && t.sp != (ready 0x2300).sp &&
      t.pc != (ready 0x2300).pc + 2) (by decide),
    of_stepTo (p := fun t => t.pc == 0xFFF) (by decide)⟩
/-- `DeviceStateChangesOnlyByItsWriters`: pixels with the flag, the marker set and cleared, the draws. -/
theorem witness_DeviceStateChanges :
    (∃ t, step (drawStart 0x80 0 0) = .next t ∧ (t.fb.pixel 0 0 && t.chg) = true) ∧
    (∃ t, step (ready 0xF10A) = .next t ∧ (t.waitV && t.waitX != (ready 0xF10A).waitX) = true) ∧
    (∃ t, step (waiting [7]) = .next t ∧ (!t.waitV) = true) ∧
    (∃ t, step (ready 0xC300) = .next t ∧ (t.draws == 1) = true) :=
  ⟨of_stepTo (p := fun t => t.fb.pixel 0 0 && t.chg) (by decide +kernel),
    of_stepTo (p := fun t => t.waitV && t.waitX != (ready 0xF10A).waitX) (by decide),
    of_stepTo (p := fun t => !t.waitV) (by decide), of_stepTo (p := fun t => t.draws == 1) (by decide)⟩

/-- `CallPushesAndJumps`, `ReturnPopsIntoPc`: SP at both ends of each clause. -/
theorem witness_StackBounds :
    ({ State.reset with sp := 15 } : State).sp.val < 16 ∧ ({ State.reset with sp := 16 } : State).sp.val = 16 ∧
    ({ State.reset with sp := 1 } : State).sp.val = (0 : Fin 16).val + 1 ∧
    ({ State.reset with sp := 16 } : State).sp.val = (15 : Fin 16).val + 1 ∧ State.reset.sp.val = 0 := by decide
/-- The ALU statements' `x ≠ 15`. -/
theorem witness_FlagIsSeparate : (14 : RegIx) ≠ 15 := by decide
/-- `DecimalDigitsAreStored`: I at 0xFFD and 0xFFE. -/
theorem witness_DecimalDigits : (State.reset.setI 0xFFD).mem.wf ∧ (State.reset.setI 0xFFD).i.toNat + 2 ≤ 0xFFF ∧
    0xFFF < (State.reset.setI 0xFFE).i.toNat + 2 := by decide
/-- `RegistersAreStored`, `RegistersAreLoaded`: I + X at 0xFFF and 0x1000, j at X and just above. -/
theorem witness_RegisterRange : (State.reset.setI 0xFF0).mem.wf ∧
    (State.reset.setI 0xFF0).i.toNat + (15 : RegIx).val ≤ 0xFFF ∧
    0xFFF < (State.reset.setI 0xFF1).i.toNat + (15 : RegIx).val ∧ (14 : RegIx) ≤ 14 ∧ (14 : RegIx) < 15 := by decide
/-- `StoreThenLoadRestoresRegisters`, `StoredWordIsFetched`: a store that completes, and the state to load it in. -/
theorem witness_StoreThenLoad : ∃ t, (State.reset.setI 0x400).mem.wf ∧ 1 ≤ (1 : RegIx).val ∧
    exec (.stInd 1) (State.reset.setI 0x400) = .next t ∧ (∀ a, (t.setI 0x400).byteAt a = t.byteAt a) ∧
    (t.setI 0x400).i = (State.reset.setI 0x400).i :=
  ⟨_, by decide, by decide, rfl, fun _ => rfl, rfl⟩
/-- `AccessesAreCheckedWhole`: no byte beyond memory, the last byte, one byte too many. -/
theorem witness_Accesses : State.reset.mem.wf ∧ 0xFFF + [(1 : Byte)].length - 1 ≤ 0xFFF ∧
    0xFFF < 0xFFF + [(1 : Byte), 2].length - 1 ∧ 0xFFF + 1 - 1 ≤ 0xFFF ∧ 0xFFF < 0x1000 + 1 - 1 := by decide
theorem witness_CanonicalMemories : Memory.wf [(0x200, 1)] ∧ Memory.wf (Memory.write [] 0x200 1) ∧
    ∀ a, Memory.read [(0x200, 1)] a = Memory.read (Memory.write [] 0x200 1) a := ⟨by decide, by decide, fun _ => rfl⟩

/-- `DrawTogglesTheSpritePixels`: no row; the last byte of memory; one row too many; a set bit that lands on an on
pixel and a pixel nothing lands on. -/
theorem witness_DrawBounds : (0 : Nibble).toNat = 0 ∧ (State.reset.setI 0xFFF).i.toNat + (1 : Nibble).toNat - 1 ≤ 0xFFF ∧
    1 ≤ (2 : Nibble).toNat ∧ 0xFFF < (State.reset.setI 0xFFF).i.toNat + (2 : Nibble).toNat - 1 := by decide
theorem witness_DrawLands :
    (∃ j b, j < (1 : Nibble).toNat ∧ b < 8 ∧ ((drawStart 0x80 0 0).byteAt (0x300 + j)).getLsbD (7 - b) = true ∧
      (0 : Fin 32).val = (((drawStart 0x80 0 0).reg 1).toNat + j) % 32 ∧
      (0 : Fin 64).val = (((drawStart 0x80 0 0).reg 0).toNat + b) % 64) ∧
    (∀ j, j < (1 : Nibble).toNat → (5 : Fin 32).val ≠ (((drawStart 0x80 0 0).reg 1).toNat + j) % 32) ∧
    (FrameBuffer.clear.setPixel 0 0 true).pixel 0 0 = true ∧ FrameBuffer.clear.pixel 0 0 = false :=
  ⟨⟨0, 0, by decide⟩, by decide, by decide +kernel, by decide +kernel⟩
theorem witness_DrawingTwice : (List.replicate 15 (0x80 : Byte)).length ≤ 15 := by decide
theorem witness_KeySkips : (7 : KeyIx).val = ((State.reset.setReg 2 0x17).reg 2).toNat % 16 := by decide
/-- `KeyWaitRunsToItsEnd`. -/
theorem witness_KeyWait : Runs (ready 0xF10A) (.ldVxK 1) ∧ ∀ j, (ready 0xF10A).key.get j = false :=
  ⟨(of_runsTo (p := fun _ => true) (by decide)).1, by decide⟩

/-- `ResetLeavesTheStatedValues`: the ends of the two ranges of memory. -/
theorem witness_Reset : hostReset (ready 0x6005) = State.reset ∧ 79 < font.length ∧ 0x50 ≤ 0xFFF := by decide
theorem witness_LoadProgram : State.reset.mem.wf ∧ (List.replicate 3584 (1 : Byte)).length ≤ 3584 ∧
    3584 < (List.replicate 3585 (1 : Byte)).length := by
  rw [List.length_replicate, List.length_replicate]
  exact ⟨Memory.wf_nil, by decide, by decide⟩
theorem witness_SetKey : (3 : KeyIx) ≠ 5 ∧ HostMove.takeChangedFlag ≠ .reset ∧
    ∀ k pressed, HostMove.takeChangedFlag ≠ .setKey k pressed := ⟨by decide, by decide, fun _ _ h => nomatch h⟩

/-- The invariant's hypothesis, in a state that a step leaves. -/
theorem witness_Inv : Inv { State.reset with pc := 0x10FE, i := 0x1000, sp := 1, stack := Vector.replicate 16 0x1000 } where
  memWf := Memory.wf_nil
  pcLe := by decide
  indexLe := by decide
  liveEntries := by decide
theorem witness_StepKeeps : Inv (ready 0x2300) ∧ ∃ t, step (ready 0x2300) = .next t ∧ (t.sp == 1) = true :=
  ⟨⟨by decide, by decide, by decide, by decide⟩, of_stepTo (p := fun t => t.sp == 1) (by decide)⟩
theorem witness_HostMoves : Inv State.reset ∧ hostMove (.loadProgram [0xF1, 0x0A]) State.reset ≠ State.reset :=
  ⟨⟨by decide, by decide, by decide, by decide⟩, by decide⟩
/-- `ReachableStatesMeetTheBounds`: a reachable state in a key wait, and one with a live stack entry. -/
theorem witness_Reachable :
    (∃ s, Reachable s ∧ s.waitV = true ∧ s.waitX = 1) ∧ ∃ s, Reachable s ∧ (0 : Fin 16).val < s.sp.val :=
  ⟨⟨_, .cycle (.host (.loadProgram [0xF1, 0x0A]) .reset), by decide, by decide⟩,
    _, .cycle (.host (.loadProgram [0x22, 0x00]) .reset), by decide⟩

end Sys2Proof.Tests
end

/-! ## Proofs of the family 10_state: who writes what (R37), the invariant (R46), the reset values (R45)

R37's matrix of writers is said once (`mayChange`, `exec_unchanged`); every
statement on who writes what, and the invariant of R46, then looks only at the instructions the matrix names. -/

namespace Sys2Proof.Machine

/-! ### Frames over whole fields -/

/-- The fields of a part are equal as data: `Part.same` says what they read as, this also that they are stored alike. -/
def Part.unchanged (p : Part) (s t : State) : Prop :=
  match p with
  | .regs => t.v = s.v
  | .index => t.i = s.i
  | .pc => t.pc = s.pc
  | .stack => t.stack = s.stack ∧ t.sp = s.sp
  | .memory => t.mem = s.mem
  | .delay => t.dt = s.dt
  | .sound => t.st = s.st
  | .keys => t.key = s.key
  | .pixels => t.fb = s.fb
  | .changed => t.chg = s.chg
  | .wait => t.waitV = s.waitV ∧ t.waitX = s.waitX
  | .draws => t.draws = s.draws

/-- Every part but the named ones has equal fields. -/
def UnchangedExcept (ps : List Part) (s t : State) : Prop := ∀ p : Part, p ∉ ps → p.unchanged s t

theorem Part.unchanged.same {p : Part} {s t : State} (h : p.unchanged s t) : p.same s t := by
  cases p with
  | regs => exact Part.same_regs h
  | memory => exact Part.same_memory h
  | stack => exact Part.same_stack h.1 h.2
  | keys => exact Part.same_keys h
  | pixels => exact Part.same_pixels h
  | index | pc | delay | sound | changed | wait | draws => exact h

theorem Part.unchanged.trans {p : Part} {s t u : State} (h : p.unchanged s t) (h' : p.unchanged t u) :
    p.unchanged s u := by
  cases p with
  | stack | wait => exact ⟨h'.1.trans h.1, h'.2.trans h.2⟩
  | regs | index | pc | memory | delay | sound | keys | pixels | changed | draws => exact Eq.trans h' h

theorem UnchangedExcept.refl (s : State) : UnchangedExcept [] s s := fun p _ => by
  cases p with
  | stack | wait => exact ⟨rfl, rfl⟩
  | regs | index | pc | memory | delay | sound | keys | pixels | changed | draws => rfl

/-- The frame of two updates in a row leaves out what either of them leaves out. -/
theorem UnchangedExcept.append {ps qs : List Part} {s t u : State} (h : UnchangedExcept ps s t)
    (h' : UnchangedExcept qs t u) : UnchangedExcept (ps ++ qs) s u := fun p hp =>
  (h p fun hm => hp (List.mem_append_left qs hm)).trans (h' p fun hm => hp (List.mem_append_right ps hm))

/-! One frame per update of the state. -/

section
variable (s : State)

theorem unchanged_setReg (x : RegIx) (b : Byte) : UnchangedExcept [.regs] s (s.setReg x b) := fun p hp => by
  cases p <;> simp_all [Part.unchanged]

theorem unchanged_loadRegs (bytes : List Byte) : UnchangedExcept [.regs] s (loadRegs s bytes) := fun p hp => by
  cases p <;> simp_all [Part.unchanged]

theorem unchanged_writeFlagThenReg (f : Byte) (x : RegIx) (b : Byte) :
    UnchangedExcept [.regs] s (writeFlagThenReg s f x b) := fun p hp => by
  cases p <;> simp_all [Part.unchanged]

theorem unchanged_setI (a : Word) : UnchangedExcept [.index] s (s.setI a) := fun p hp => by
  cases p <;> simp_all [Part.unchanged]

theorem unchanged_setPc (a : Word) : UnchangedExcept [.pc] s (s.setPc a) := fun p hp => by
  cases p <;> simp_all [Part.unchanged]

theorem unchanged_setStack (v : Vector Word 16) (n : Fin 17) :
    UnchangedExcept [.stack] s { s with stack := v, sp := n } := fun p hp => by
  cases p <;> simp_all [Part.unchanged]

theorem unchanged_setMem (m : Memory) : UnchangedExcept [.memory] s (s.setMem m) := fun p hp => by
  cases p <;> simp_all [Part.unchanged]

theorem unchanged_setDt (b : Byte) : UnchangedExcept [.delay] s (s.setDt b) := fun p hp => by
  cases p <;> simp_all [Part.unchanged]

theorem unchanged_setSt (b : Byte) : UnchangedExcept [.sound] s (s.setSt b) := fun p hp => by
  cases p <;> simp_all [Part.unchanged]

theorem unchanged_setScreen (fb : FrameBuffer) : UnchangedExcept [.pixels, .changed] s (s.setScreen fb) :=
  fun p hp => by cases p <;> simp_all [Part.unchanged]

theorem unchanged_setKeyBit (k : KeyIx) (pressed : Bool) : UnchangedExcept [.keys] s (s.setKeyBit k pressed) :=
  fun p hp => by cases p <;> simp_all [Part.unchanged]

theorem unchanged_clearChanged : UnchangedExcept [.changed] s s.clearChanged := fun p hp => by
  cases p <;> simp_all [Part.unchanged]

theorem unchanged_beginWait (x : RegIx) : UnchangedExcept [.wait] s (s.beginWait x) := fun p hp => by
  cases p <;> simp_all [Part.unchanged]

theorem unchanged_endWait : UnchangedExcept [.wait] s s.endWait := fun p hp => by
  cases p <;> simp_all [Part.unchanged]

theorem unchanged_draw (n : Nat) : UnchangedExcept [.draws] s { s with draws := n } := fun p hp => by
  cases p <;> simp_all [Part.unchanged]

theorem unchanged_timerTick : UnchangedExcept [.delay, .sound] s (timerTick s) :=
  (unchanged_setDt s _).append (unchanged_setSt _ _)

theorem unchanged_skipIf (c : Bool) : UnchangedExcept [.pc] s (skipIf c s) := by
  rw [skipIf_eq]
  exact unchanged_setPc s _

/-! ### Next states of the instructions that can end in an error -/

variable {s} {t : State} {x y : RegIx} {n : Nibble} {nnn : Lit12}

theorem exec_ret_next (h : exec .ret s = .next t) : ∃ _hsp : s.sp.val ≠ 0,
    t = ({ s with sp := ⟨s.sp.val - 1, by omega⟩ } : State).setPc (s.stack[s.sp.val - 1]'(by omega)) := by
  rcases exec_ret_cases s with ⟨-, he⟩ | ⟨hsp, he⟩ <;> rw [he] at h <;> cases h
  exact ⟨hsp, rfl⟩

theorem exec_call_next (h : exec (.call nnn) s = .next t) : ∃ hsp : s.sp.val < 16,
    t = ({ s with
      stack := s.stack.set s.sp.val s.pc hsp, sp := ⟨s.sp.val + 1, Nat.succ_lt_succ hsp⟩ } : State).setPc
        (addrOf nnn) := by
  rcases exec_call_cases s nnn with ⟨-, he⟩ | ⟨hsp, he⟩ <;> rw [he] at h <;> cases h
  exact ⟨hsp, rfl⟩

theorem exec_drw_next (h : exec (.drw x y n) s = .next t) :
    ∃ drawn : FrameBuffer × Bool, t = (s.setFlag (collisionFlag drawn.2)).setScreen drawn.1 := by
  rcases exec_drw_cases s x y n with ⟨-, -, he⟩ | ⟨-, he⟩ <;> rw [he] at h <;> cases h
  exact ⟨_, rfl⟩

theorem exec_ldBVx_next (h : exec (.ldBVx x) s = .next t) :
    inBounds s.i.toNat (decimalDigits (s.reg x)).length ∧
      t = s.setMem (s.mem.writeBytes s.i.toNat (decimalDigits (s.reg x))) := by
  rcases exec_ldBVx_cases s x with ⟨-, he⟩ | ⟨hin, -, he⟩ <;> rw [he] at h <;> cases h
  exact ⟨hin, rfl⟩

theorem exec_stInd_next (h : exec (.stInd x) s = .next t) :
    inBounds s.i.toNat (regsUpTo s x).length ∧ s.i.toNat + x.val ≤ 0xFFF ∧
      t = (s.setMem (s.mem.writeBytes s.i.toNat (regsUpTo s x))).setI (indexPast s x) := by
  rcases exec_stInd_cases s x with ⟨-, he⟩ | ⟨hin, hle, he⟩ <;> rw [he] at h <;> cases h
  exact ⟨hin, hle, rfl⟩

theorem exec_ldInd_next (h : exec (.ldInd x) s = .next t) : s.i.toNat + x.val ≤ 0xFFF ∧
    t = (loadRegs s (s.mem.readBytes s.i.toNat (x.val + 1))).setI (indexPast s x) := by
  rcases exec_ldInd_cases s x with ⟨-, he⟩ | ⟨hle, he⟩ <;> rw [he] at h <;> cases h
  exact ⟨hle, rfl⟩

end

/-! ### What an instruction may change (R37) -/

/-- R37, by rows: the parts an instruction may change before the tick, PC counted from `npc`. -/
def mayChange (i : Instr) : List Part :=
  match i with
  | .cls => [.pixels, .changed]
  | .ret | .call _ => [.stack, .pc]
  | .jp _ | .jpV0 _ | .seKk _ _ | .sneKk _ _ | .seVy _ _ | .sneVy _ _ | .skp _ | .sknp _ => [.pc]
  | .ldKk _ _ | .addKk _ _ | .ldVy _ _ | .orVy _ _ | .andVy _ _ | .xorVy _ _ | .addVy _ _ | .sub _ _ | .shr _ _
  | .subn _ _ | .shl _ _ | .ldVxDt _ => [.regs]
  | .ldI _ | .ldFVx _ => [.index]
  | .rnd _ _ => [.draws, .regs]
  | .drw _ _ _ => [.regs, .pixels, .changed]
  | .ldVxK _ => [.wait]
  | .ldDtVx _ => [.delay]
  | .ldStVx _ => [.sound]
  | .addIVx _ | .ldInd _ => [.regs, .index]
  | .ldBVx _ => [.memory]
  | .stInd _ => [.memory, .index]

/-- An instruction changes only what R37 lets it change. -/
theorem exec_unchanged {i : Instr} {s t : State} (h : exec i s = .next t) : UnchangedExcept (mayChange i) s t := by
  cases i with
  | cls => cases h; exact unchanged_setScreen s _
  | ret =>
    obtain ⟨-, rfl⟩ := exec_ret_next h
    exact (unchanged_setStack s _ _).append (unchanged_setPc _ _)
  | call =>
    obtain ⟨-, rfl⟩ := exec_call_next h
    exact (unchanged_setStack s _ _).append (unchanged_setPc _ _)
  | jp | jpV0 => cases h; exact unchanged_setPc s _
  | seKk | sneKk | seVy | sneVy | skp | sknp => cases h; exact unchanged_skipIf s _
  | ldKk | addKk | ldVy | orVy | andVy | xorVy | ldVxDt => cases h; exact unchanged_setReg s _ _
  | addVy | sub | shr | subn | shl => cases h; exact unchanged_writeFlagThenReg s _ _ _
  | ldI | ldFVx => cases h; exact unchanged_setI s _
  | rnd => cases h; exact (unchanged_draw s _).append (unchanged_setReg _ _ _)
  | drw =>
    obtain ⟨_, rfl⟩ := exec_drw_next h
    exact (unchanged_setReg s vf _).append (unchanged_setScreen _ _)
  | ldVxK => cases h; exact unchanged_beginWait s _
  | ldDtVx => cases h; exact unchanged_setDt s _
  | ldStVx => cases h; exact unchanged_setSt s _
  | addIVx => cases h; exact (unchanged_setReg s vf _).append (unchanged_setI _ _)
  | ldBVx =>
    obtain ⟨-, rfl⟩ := exec_ldBVx_next h
    exact unchanged_setMem s _
  | stInd =>
    obtain ⟨-, -, rfl⟩ := exec_stInd_next h
    exact (unchanged_setMem s _).append (unchanged_setI _ _)
  | ldInd =>
    obtain ⟨-, rfl⟩ := exec_ldInd_next h
    exact (unchanged_loadRegs s _).append (unchanged_setI _ _)

/-! ### What the key-wait branch may change (R122) -/

theorem waitBranch_of_pressed {s : State} {k : KeyIx} (h : lowestPressed s = some k) :
    waitBranch s = (s.setReg s.waitX (BitVec.ofNat 8 k.val)).endWait := by
  simp [waitBranch, h]

theorem waitBranch_of_released {s : State} (h : lowestPressed s = none) : waitBranch s = s := by
  simp [waitBranch, h]

theorem waitBranch_unchanged (s : State) : UnchangedExcept [.regs, .wait] s (waitBranch s) := by
  cases h : lowestPressed s with
  | some k =>
    rw [waitBranch_of_pressed h]
    exact (unchanged_setReg s _ _).append (unchanged_endWait _)
  | none =>
    rw [waitBranch_of_released h]
    exact fun p _ => UnchangedExcept.refl s p (by simp)

@[simp] theorem waitBranch_waitX (s : State) : (waitBranch s).waitX = s.waitX := by
  cases h : lowestPressed s with
  | some k => rw [waitBranch_of_pressed h]; rfl
  | none => rw [waitBranch_of_released h]

/-! ### What a step may change -/

/-- The next state of a step that executes `i`. -/
theorem exec_of_runs {s t : State} {i : Instr} (hr : Runs s i) (h : step s = .next t) :
    ∃ u, exec i (s.setPc (s.pc + 2)) = .next u ∧ t = timerTick u := by
  rw [step_exec hr.1 hr.2] at h
  exact finish_next.mp h

/-- Every next state of a step: the ticked key-wait branch, or the step executed an instruction. -/
theorem waiting_or_runs {s t : State} (h : step s = .next t) :
    (s.waitV = true ∧ t = timerTick (waitBranch s)) ∨ ∃ i, Runs s i := by
  rcases step_next h with hw | ⟨hw, i, -, hf, -⟩
  · exact .inl hw
  · exact .inr ⟨i, hw, hf⟩

/-- A step that executes `i` changes PC, the timers and what `i` may change. -/
theorem step_unchanged {s t : State} {i : Instr} (hr : Runs s i) (h : step s = .next t) :
    UnchangedExcept (.pc :: (mayChange i ++ [.delay, .sound])) s t := by
  obtain ⟨u, hu, rfl⟩ := exec_of_runs hr h
  exact (unchanged_setPc s _).append ((exec_unchanged hu).append (unchanged_timerTick u))

/-- What a step changed beside PC and the timers was changed by an instruction that may, or in the key wait. -/
theorem writer_of_changed {s t : State} (h : step s = .next t) {p : Part} (hp : p ∉ [.pc, .delay, .sound])
    (hc : ¬ p.unchanged s t) :
    (∃ i, Runs s i ∧ p ∈ mayChange i) ∨
      (s.waitV = true ∧ t = timerTick (waitBranch s) ∧ p ∈ [Part.regs, Part.wait]) := by
  rcases waiting_or_runs h with ⟨hw, rfl⟩ | ⟨i, hr⟩
  · refine .inr ⟨hw, rfl, by_contra fun hm => hc ?_⟩
    exact ((waitBranch_unchanged s).append (unchanged_timerTick _)) p (by simp_all)
  · refine .inl ⟨i, hr, by_contra fun hm => hc (step_unchanged hr h p ?_)⟩
    simp_all

/-- The same for a part that the key wait leaves alone. -/
theorem runs_of_changed {s t : State} (h : step s = .next t) {p : Part}
    (hp : p ∉ [.pc, .delay, .sound, .regs, .wait]) (hc : ¬ p.unchanged s t) : ∃ i, Runs s i ∧ p ∈ mayChange i := by
  rcases writer_of_changed h (by simp_all) hc with hi | ⟨-, -, hm⟩
  · exact hi
  · simp_all

/-! ### The invariant of R46 -/

/-- The invariant speaks of memory, PC, I and the stack alone. -/
theorem Inv.of_unchanged {ps : List Part} {s t : State} (hs : Inv s) (h : UnchangedExcept ps s t)
    (hps : ∀ p ∈ [Part.memory, .pc, .index, .stack], p ∉ ps) : Inv t := by
  have hmem : t.mem = s.mem := h .memory (hps _ (by simp))
  have hpc : t.pc = s.pc := h .pc (hps _ (by simp))
  have hi : t.i = s.i := h .index (hps _ (by simp))
  obtain ⟨hstack, hsp⟩ : t.stack = s.stack ∧ t.sp = s.sp := h .stack (hps _ (by simp))
  exact ⟨hmem ▸ hs.memWf, hpc ▸ hs.pcLe, hi ▸ hs.indexLe, by rw [hstack, hsp]; exact hs.liveEntries⟩

theorem addrOf_toNat (nnn : Lit12) : (addrOf nnn).toNat = nnn.toNat := by
  have := nnn.isLt
  simp only [addrOf, BitVec.toNat_setWidth]
  omega

theorem addrPlus_toNat (nnn : Lit12) (b : Byte) : (addrPlus nnn b).toNat = nnn.toNat + b.toNat := by
  have := nnn.isLt
  have := b.isLt
  simp only [addrPlus, BitVec.toNat_add, addrOf_toNat, BitVec.toNat_setWidth]
  omega

theorem glyphAddr_toNat (b : Byte) : (glyphAddr b).toNat = b.toNat * 5 := by
  have := b.isLt
  simp only [glyphAddr, BitVec.toNat_ofNat, Config.fontBase]
  omega

/-- Moving PC by a word does not wrap while PC is in memory or just behind it. -/
theorem toNat_add_two {a : Word} (h : a.toNat ≤ 0x1000) : (a + 2).toNat = a.toNat + 2 := by
  rw [BitVec.toNat_add, show (2 : Word).toNat = 2 from rfl]
  omega

/-- All that an instruction can leave in PC, beside `npc` (R23): a skip's target, a jump's or call's, the indexed
jump's, the popped entry. -/
theorem exec_pc_cases {i : Instr} {s t : State} (h : exec i s = .next t) :
    (t.pc = s.pc ∨ t.pc = s.pc + 2) ∨ (∃ nnn, t.pc = addrOf nnn) ∨ (∃ nnn b, t.pc = addrPlus nnn b) ∨
      ∃ k : Fin 16, k.val < s.sp.val ∧ t.pc = s.stack.get k := by
  by_cases hp : Part.pc ∈ mayChange i
  · cases i with
    | ret =>
      obtain ⟨hsp, rfl⟩ := exec_ret_next h
      exact .inr (.inr (.inr ⟨⟨s.sp.val - 1, by omega⟩, by simp only; omega, rfl⟩))
    | call nnn =>
      obtain ⟨-, rfl⟩ := exec_call_next h
      exact .inr (.inl ⟨nnn, rfl⟩)
    | jp nnn => cases h; exact .inr (.inl ⟨nnn, rfl⟩)
    | jpV0 nnn => cases h; exact .inr (.inr (.inl ⟨nnn, s.reg 0, rfl⟩))
    | seKk | sneKk | seVy | sneVy | skp | sknp =>
      cases h
      rw [skipIf_eq, State.setPc_pc]
      split <;> simp
    | _ => simp [mayChange] at hp
  · exact .inl (.inl (exec_unchanged h .pc hp))

/-- An instruction fetched inside memory leaves PC at most 0x10FE; only the indexed jump comes that far. -/
theorem exec_pc_le {i : Instr} {s t : State} (h : exec i s = .next t) (hpc : s.pc.toNat ≤ 0x1000)
    (hlive : ∀ k : Fin 16, k.val < s.sp.val → (s.stack.get k).toNat ≤ 0x1000) : t.pc.toNat ≤ 0x10FE := by
  rcases exec_pc_cases h with (ht | ht) | ⟨nnn, ht⟩ | ⟨nnn, b, ht⟩ | ⟨k, hk, ht⟩ <;> rw [ht]
  · omega
  · rw [toNat_add_two hpc]; omega
  · rw [addrOf_toNat]; omega
  · rw [addrPlus_toNat]; omega
  · exact (hlive k hk).trans (by decide)

/-- An instruction keeps I at most 0x1000; FX55 and FX65 reach it when their range ends memory. -/
theorem exec_i_le {i : Instr} {s t : State} (h : exec i s = .next t) (hi : s.i.toNat ≤ 0x1000) :
    t.i.toNat ≤ 0x1000 := by
  by_cases hp : Part.index ∈ mayChange i
  · cases i with
    | ldI nnn =>
      cases h
      rw [State.setI_i, addrOf_toNat]; omega
    | ldFVx x =>
      cases h
      rw [State.setI_i, glyphAddr_toNat]; omega
    | addIVx x =>
      cases h
      rw [State.setI_i, BitVec.toNat_ofNat]; omega
    | stInd x =>
      obtain ⟨-, hle, rfl⟩ := exec_stInd_next h
      rw [State.setI_i, indexPast_toNat s x hle]; omega
    | ldInd x =>
      obtain ⟨hle, rfl⟩ := exec_ldInd_next h
      rw [State.setI_i, indexPast_toNat s x hle]; omega
    | _ => simp [mayChange] at hp
  · exact (exec_unchanged h .index hp : t.i = s.i) ▸ hi

/-- An instruction keeps the canonical form of memory. -/
theorem exec_mem_wf {i : Instr} {s t : State} (h : exec i s = .next t) (hm : s.mem.wf) : t.mem.wf := by
  by_cases hp : Part.memory ∈ mayChange i
  · cases i with
    | ldBVx x =>
      obtain ⟨hin, rfl⟩ := exec_ldBVx_next h
      exact wf_writeBytes_inBounds hm hin
    | stInd x =>
      obtain ⟨hin, -, rfl⟩ := exec_stInd_next h
      exact wf_writeBytes_inBounds hm hin
    | _ => simp [mayChange] at hp
  · exact (exec_unchanged h .memory hp : t.mem = s.mem) ▸ hm

/-- A bound that every live stack entry and `npc` meet is met by every live entry after an instruction: only 2NNN
writes an entry, and it writes `npc`. -/
theorem exec_liveEntries {i : Instr} {s t : State} (h : exec i s = .next t) {P : Word → Prop} (hpc : P s.pc)
    (hlive : ∀ k : Fin 16, k.val < s.sp.val → P (s.stack.get k)) (k : Fin 16) (hk : k.val < t.sp.val) :
    P (t.stack.get k) := by
  by_cases hp : Part.stack ∈ mayChange i
  · cases i with
    | ret =>
      obtain ⟨hsp, rfl⟩ := exec_ret_next h
      exact hlive k (Nat.lt_of_lt_of_le hk (Nat.sub_le _ _))
    | call nnn =>
      obtain ⟨hsp, rfl⟩ := exec_call_next h
      replace hk : k.val < s.sp.val + 1 := hk
      show P ((s.stack.set s.sp.val s.pc hsp).get k)
      rw [Vector.get_eq_getElem, Vector.getElem_set]
      split
      · exact hpc
      · exact hlive k (by omega)
    | _ => simp [mayChange] at hp
  · obtain ⟨hstack, hsp⟩ : t.stack = s.stack ∧ t.sp = s.sp := exec_unchanged h .stack hp
    rw [hstack]
    exact hlive k (hsp ▸ hk)

/-- R46: a step that executes an instruction keeps the invariant. -/
theorem Inv.of_runs {s t : State} {i : Instr} (hs : Inv s) (hr : Runs s i) (h : step s = .next t) : Inv t := by
  obtain ⟨u, hu, rfl⟩ := exec_of_runs hr h
  have hle : s.pc.toNat ≤ 0xFFE := pc_le_of_fetchInstr hr.2
  have hnpc : (s.pc + 2).toNat = s.pc.toNat + 2 := toNat_add_two (by omega)
  refine Inv.of_unchanged (ps := [.delay, .sound]) ?_ (unchanged_timerTick u) (by decide)
  refine ⟨exec_mem_wf hu hs.memWf, exec_pc_le hu ?_ fun k hk => (hs.liveEntries k hk).2, exec_i_le hu hs.indexLe,
    exec_liveEntries (P := fun a => 2 ≤ a.toNat ∧ a.toNat ≤ 0x1000) hu ?_ hs.liveEntries⟩
  · rw [State.setPc_pc]; omega
  · rw [State.setPc_pc]; omega

/-- Settles O58: the key wait leaves what the invariant speaks of alone, and each instruction keeps each clause. -/
theorem stepKeepsTheInvariant : Obligations.StepKeepsTheInvariant := by
  intro s t hs h
  rcases waiting_or_runs h with ⟨-, rfl⟩ | ⟨i, hr⟩
  · exact hs.of_unchanged ((waitBranch_unchanged s).append (unchanged_timerTick _)) (by decide)
  · exact hs.of_runs hr h

end Sys2Proof.Machine

namespace Sys2Proof.Machine

/-! ### Reset (R45) -/

theorem resetByte_of_lt_font {a : Nat} (h : a < font.length) : Memory.resetByte a = font[a] := by
  simp [Memory.resetByte, h]

theorem resetByte_of_font_le {a : Nat} (h : font.length ≤ a) : Memory.resetByte a = 0 := by
  simp [Memory.resetByte, h]

/-- Settles O53: memory after reset lists no cell, so every address reads as `Memory.resetByte`. -/
theorem resetLeavesTheStatedValues : Obligations.ResetLeavesTheStatedValues := by
  refine ⟨rfl, rfl, ?_⟩
  rintro s _ rfl
  refine ⟨fun a ha => resetByte_of_lt_font ha, fun a ha _ => resetByte_of_font_le ha, fun r => ?_, rfl, rfl,
    fun k => ?_, rfl, rfl, rfl, fun k => ?_, FrameBuffer.pixel_clear, rfl, rfl, rfl, rfl⟩
  · exact Vector.getElem_replicate r.isLt
  · exact Vector.getElem_replicate k.isLt
  · exact Vector.getElem_replicate k.isLt

/-- Settles O57: memory lists no cell and no stack entry is live. -/
theorem resetMeetsTheInvariant : Obligations.ResetMeetsTheInvariant where
  memWf := Memory.wf_nil
  pcLe := by decide
  indexLe := by decide
  liveEntries := fun _ hk => absurd hk (Nat.not_lt_zero _)

/-! ### Host moves -/

/-- All that a load does to the state: its bytes at 0x200, inside memory, or nothing (R245). -/
theorem hostMove_loadProgram_cases (bytes : List Byte) (s : State) :
    hostMove (.loadProgram bytes) s = s ∨ (Config.progBase + bytes.length ≤ Config.memSize ∧
      hostMove (.loadProgram bytes) s = s.setMem (s.mem.writeBytes Config.progBase bytes)) := by
  by_cases h : bytes.length > Config.romMax
  · exact .inl (by simp [hostMove, loadProgram, h, raise])
  · refine .inr ⟨?_, by simp [hostMove, loadProgram, h]⟩
    simp only [Config.romMax, Config.progBase, Config.memSize] at h ⊢
    omega

/-- Every host move but reset leaves all but memory, keys and the changed flag alone. -/
theorem hostMove_unchanged {m : HostMove} (hm : m ≠ .reset) (s : State) :
    UnchangedExcept [.memory, .keys, .changed] s (hostMove m s) := by
  intro p hp
  cases m with
  | reset => exact absurd rfl hm
  | loadProgram bytes =>
    rcases hostMove_loadProgram_cases bytes s with he | ⟨-, he⟩ <;> rw [he]
    · exact UnchangedExcept.refl s p (by simp)
    · exact unchanged_setMem s _ p (by simp_all)
  | setKey k pressed => exact unchanged_setKeyBit s k pressed p (by simp_all)
  | takeChangedFlag => exact unchanged_clearChanged s p (by simp_all)
  | pixelAt | soundTimer => exact UnchangedExcept.refl s p (by simp)

/-- A reset leaves the reset state, but for the model's own count of draws. -/
theorem inv_hostReset (s : State) : Inv (hostReset s) :=
  resetMeetsTheInvariant.of_unchanged (unchanged_draw State.reset s.draws) (by decide)

/-- Settles O59: only a load writes memory, inside it; only reset writes PC, I or the stack. -/
theorem hostMovesKeepTheInvariant : Obligations.HostMovesKeepTheInvariant := by
  intro m s hs
  cases m with
  | reset => exact inv_hostReset s
  | loadProgram bytes =>
    rcases hostMove_loadProgram_cases bytes s with he | ⟨hle, he⟩ <;> rw [he]
    · exact hs
    · exact ⟨Memory.wf_writeBytes bytes hs.memWf hle, hs.pcLe, hs.indexLe, hs.liveEntries⟩
  | setKey k pressed => exact hs.of_unchanged (unchanged_setKeyBit s k pressed) (by decide)
  | takeChangedFlag => exact hs.of_unchanged (unchanged_clearChanged s) (by decide)
  | pixelAt | soundTimer => exact hs

/-! ### The writers of each part -/

section
variable {i : Instr}

theorem index_writer (h : Part.index ∈ mayChange i) : ∃ x nnn,
    i = .ldI nnn ∨ i = .addIVx x ∨ i = .ldFVx x ∨ i = .stInd x ∨ i = .ldInd x := by
  cases i <;> simp_all [mayChange]

theorem stack_writer (h : Part.stack ∈ mayChange i) : i = .ret ∨ ∃ nnn, i = .call nnn := by
  cases i <;> simp_all [mayChange]

theorem pc_writer (h : Part.pc ∈ mayChange i) : ∃ x y kk nnn,
    i = .ret ∨ i = .jp nnn ∨ i = .call nnn ∨ i = .jpV0 nnn ∨ i = .seKk x kk ∨ i = .sneKk x kk ∨ i = .seVy x y ∨
      i = .sneVy x y ∨ i = .skp x ∨ i = .sknp x := by
  cases i <;> simp_all [mayChange]

theorem screen_writer (h : Part.pixels ∈ mayChange i ∨ Part.changed ∈ mayChange i) :
    i = .cls ∨ ∃ x y n, i = .drw x y n := by
  cases i <;> simp_all [mayChange]

theorem wait_writer (h : Part.wait ∈ mayChange i) : ∃ x, i = .ldVxK x := by
  cases i <;> simp_all [mayChange]

theorem draws_writer (h : Part.draws ∈ mayChange i) : ∃ x kk, i = .rnd x kk := by
  cases i <;> simp_all [mayChange]

theorem memory_writer (h : Part.memory ∈ mayChange i) : ∃ x, i = .ldBVx x ∨ i = .stInd x := by
  cases i <;> simp_all [mayChange]

theorem keys_not_mem_mayChange (i : Instr) : Part.keys ∉ mayChange i := by
  cases i <;> simp [mayChange]

end

/-! ### Registers -/

theorem reg_setReg_of_ne {s : State} {x r : RegIx} {b : Byte} (h : r ≠ x) : (s.setReg x b).reg r = s.reg r := by
  rw [State.reg_setReg, if_neg h]

/-- FX65 leaves the registers above VX alone. -/
theorem reg_loadRegs_of_lt {s : State} {x r : RegIx} (a : Nat) (h : x < r) :
    (loadRegs s (s.mem.readBytes a (x.val + 1))).reg r = s.reg r := by
  rw [reg_loadRegs, List.getD_eq_default _ _ (by rw [Memory.length_readBytes]; exact h)]

/-- A register differs after an instruction only if R37 and R22 let the instruction write it. -/
theorem mayWriteReg_of_changed {i : Instr} {s t : State} {r : RegIx} (h : exec i s = .next t)
    (hc : t.reg r ≠ s.reg r) : mayWriteReg i r := by
  by_cases hp : Part.regs ∈ mayChange i
  · by_contra hw
    refine hc ?_
    cases i with
    | ldKk | addKk | ldVy | orVy | andVy | xorVy | ldVxDt | rnd | addIVx =>
      cases h
      exact reg_setReg_of_ne hw
    | addVy | sub | shr | subn | shl =>
      cases h
      obtain ⟨hx, hf⟩ := not_or.mp hw
      exact (reg_setReg_of_ne hx).trans (reg_setReg_of_ne hf)
    | drw =>
      obtain ⟨_, rfl⟩ := exec_drw_next h
      exact reg_setReg_of_ne hw
    | ldInd x =>
      obtain ⟨-, rfl⟩ := exec_ldInd_next h
      rw [State.reg_setI, reg_loadRegs_of_lt _ (not_le.mp hw)]
    | _ => simp [mayChange] at hp
  · exact absurd ((exec_unchanged h .regs hp).same r) hc

/-- The key wait writes V[WAITX] alone (R122). -/
theorem reg_waitBranch_of_ne {s : State} {r : RegIx} (h : r ≠ s.waitX) : (waitBranch s).reg r = s.reg r := by
  cases hk : lowestPressed s with
  | some k => rw [waitBranch_of_pressed hk, State.reg_endWait, State.reg_setReg, if_neg h]
  | none => rw [waitBranch_of_released hk]

/-- Settles O20: the step is the key-wait branch, or one instruction between PC's advance and the tick. -/
theorem registersChangeOnlyByTheirWriters : Obligations.RegistersChangeOnlyByTheirWriters := by
  intro s t r h hc
  rcases waiting_or_runs h with ⟨hw, rfl⟩ | ⟨i, hr⟩
  · exact .inr ⟨hw, by_contra fun hne => hc (reg_waitBranch_of_ne hne)⟩
  · obtain ⟨u, hu, rfl⟩ := exec_of_runs hr h
    exact .inl ⟨i, hr, mayWriteReg_of_changed hu hc⟩

/-! ### Memory -/

/-- In a canonical memory a byte differs after a range was written only if it lies in the range. -/
theorem mem_range_of_changed {s : State} (hm : s.mem.wf) {a b : Nat} {bytes : List Byte}
    (hin : inBounds a bytes.length) (hc : (s.setMem (s.mem.writeBytes a bytes)).byteAt b ≠ s.byteAt b) :
    a ≤ b ∧ b < a + bytes.length := by
  by_contra hr
  exact hc ((byteAt_writeBytes hm hin b).trans (if_neg hr))

/-- Settles O21: only FX33 and FX55 may change memory, and each writes one range from I up. -/
theorem memoryChangesOnlyByStores : Obligations.MemoryChangesOnlyByStores := by
  intro s t b hm h hc
  have hmem : ¬ Part.memory.unchanged s t := fun hu => hc (hu.same b)
  obtain ⟨i, hr, hp⟩ := runs_of_changed h (by decide) hmem
  obtain ⟨u, hu, rfl⟩ := exec_of_runs hr h
  obtain ⟨x, rfl | rfl⟩ := memory_writer hp
  · obtain ⟨hin, rfl⟩ := exec_ldBVx_next hu
    exact ⟨_, _, _, hr, rfl, mem_range_of_changed hm hin hc⟩
  · obtain ⟨hin, -, rfl⟩ := exec_stInd_next hu
    obtain ⟨hle, hlt⟩ := mem_range_of_changed hm hin hc
    exact ⟨_, _, _, hr, rfl, hle, length_regsUpTo _ x ▸ hlt⟩

/-! ### I, the stack, SP and PC -/

/-- A step that executes an instruction that does not assign PC leaves it at the next word (R124). -/
theorem step_pc_of_not_writer {s t : State} {i : Instr} (hr : Runs s i) (h : step s = .next t)
    (hp : Part.pc ∉ mayChange i) : t.pc = s.pc + 2 := by
  obtain ⟨u, hu, rfl⟩ := exec_of_runs hr h
  exact exec_unchanged hu .pc hp

/-- A step that executes 00EE leaves the stack entries alone (R25). -/
theorem step_stack_of_ret {s t : State} (hr : Runs s .ret) (h : step s = .next t) : t.stack = s.stack := by
  obtain ⟨u, hu, rfl⟩ := exec_of_runs hr h
  obtain ⟨-, rfl⟩ := exec_ret_next hu
  rfl

/-- The key wait leaves PC alone (R122). -/
theorem step_pc_of_waiting {s t : State} (hw : s.waitV = true) (h : step s = .next t) : t.pc = s.pc := by
  rw [step_waiting hw] at h
  cases h
  exact waitBranch_unchanged s .pc (by decide)

/-- Settles O22: each part was changed by one of its writers, of which 00EE writes no stack entry. -/
theorem controlStateChangesOnlyByItsWriters : Obligations.ControlStateChangesOnlyByItsWriters := by
  intro s t h
  have hstack : ¬ Part.stack.unchanged s t → Runs s .ret ∨ ∃ nnn, Runs s (.call nnn) := fun hc => by
    obtain ⟨i, hr, hp⟩ := runs_of_changed h (by decide) hc
    rcases stack_writer hp with rfl | ⟨nnn, rfl⟩
    · exact .inl hr
    · exact .inr ⟨nnn, hr⟩
  refine ⟨fun hc => ?_, fun hc => ?_, fun hc => hstack fun hu => hc hu.2, fun hw => step_pc_of_waiting hw h,
    fun hw hc => ?_⟩
  · obtain ⟨i, hr, hp⟩ := runs_of_changed (p := .index) h (by decide) hc
    obtain ⟨x, nnn, hi⟩ := index_writer hp
    exact ⟨x, nnn, by rcases hi with rfl | rfl | rfl | rfl | rfl <;> simp [hr]⟩
  · exact (hstack fun hu => hc hu.1).resolve_left fun hr => hc (step_stack_of_ret hr h)
  · rcases waiting_or_runs h with ⟨hw', -⟩ | ⟨i, hr⟩
    · rw [hw] at hw'; cases hw'
    · have hp : Part.pc ∈ mayChange i := by_contra fun hp => hc (step_pc_of_not_writer hr h hp)
      obtain ⟨x, y, kk, nnn, hi⟩ := pc_writer hp
      exact ⟨x, y, kk, nnn, by
        rcases hi with rfl | rfl | rfl | rfl | rfl | rfl | rfl | rfl | rfl | rfl <;> simp [hr]⟩

/-! ### Keys, pixels, changed flag, wait marker, draws -/

/-- No cycle writes a key (R31). -/
theorem step_key {s t : State} (h : step s = .next t) : t.key = s.key := by
  by_contra hc
  obtain ⟨i, -, hp⟩ := runs_of_changed (p := .keys) h (by decide) hc
  exact keys_not_mem_mayChange i hp

/-- A step that executes FX0A sets the wait marker (R212). -/
theorem step_of_ldVxK {s t : State} {x : RegIx} (hr : Runs s (.ldVxK x)) (h : step s = .next t) :
    t.waitV = true ∧ t.waitX = x := by
  obtain ⟨u, hu, rfl⟩ := exec_of_runs hr h
  cases hu
  exact ⟨rfl, rfl⟩

/-- The wait marker is moved only by the FX0A that sets it, and by the key wait. -/
theorem runs_ldVxK_of_changed {s t : State} (h : step s = .next t) (hw : s.waitV = false)
    (hc : ¬ Part.wait.unchanged s t) : Runs s (.ldVxK t.waitX) := by
  rcases writer_of_changed h (by decide) hc with ⟨i, hr, hp⟩ | ⟨hw', -⟩
  · obtain ⟨x, rfl⟩ := wait_writer hp
    rwa [(step_of_ldVxK hr h).2]
  · rw [hw] at hw'; cases hw'

/-- The key wait keeps WAITX (R122). -/
theorem step_waitX_of_waiting {s t : State} (hw : s.waitV = true) (h : step s = .next t) : t.waitX = s.waitX := by
  rw [step_waiting hw] at h
  cases h
  exact waitBranch_waitX s

/-- The key wait ends only with a key pressed (R122). -/
theorem pressed_of_wait_ended {s t : State} (hw : s.waitV = true) (h : step s = .next t) (ht : t.waitV = false) :
    ∃ k, s.key.get k = true := by
  cases hk : lowestPressed s with
  | some k => exact ⟨k, (lowestPressed_some.mp hk).1⟩
  | none =>
    rw [step_waiting hw, waitBranch_of_released hk] at h
    cases h
    rw [timerTick_waitV, hw] at ht
    cases ht

/-- A cycle whose instruction may change the screen executes 00E0 or DXYN (R32, R33). -/
theorem runs_screen_writer {s : State} {i : Instr} (hr : Runs s i)
    (hp : Part.pixels ∈ mayChange i ∨ Part.changed ∈ mayChange i) : Runs s .cls ∨ ∃ x y n, Runs s (.drw x y n) := by
  rcases screen_writer hp with rfl | ⟨x, y, n, rfl⟩
  · exact .inl hr
  · exact .inr ⟨x, y, n, hr⟩

/-- 00E0 and DXYN set the changed flag (R33). -/
theorem step_chg_of_writer {s t : State} {i : Instr} (hr : Runs s i) (h : step s = .next t)
    (hp : Part.changed ∈ mayChange i) : t.chg = true := by
  obtain ⟨u, hu, rfl⟩ := exec_of_runs hr h
  rcases screen_writer (.inr hp) with rfl | ⟨x, y, n, rfl⟩
  · cases hu; rfl
  · obtain ⟨_, rfl⟩ := exec_drw_next hu
    rfl

/-- CXKK draws one byte (R171). -/
theorem step_draws_of_rnd {s t : State} {x : RegIx} {kk : Byte} (hr : Runs s (.rnd x kk)) (h : step s = .next t) :
    t.draws = s.draws + 1 := by
  obtain ⟨u, hu, rfl⟩ := exec_of_runs hr h
  cases hu
  rfl

/-- Settles O23: each part was changed by one of its writers, the wait marker by FX0A or in the key wait. -/
theorem deviceStateChangesOnlyByItsWriters : Obligations.DeviceStateChangesOnlyByItsWriters := by
  intro s t h
  refine ⟨step_key h, fun hc => ?_, fun hc => ?_, fun hc => ?_, fun ht hw => ?_, fun ht hw => ?_, ?_, fun hn => ?_⟩
  · obtain ⟨i, hr, hp⟩ := runs_of_changed (p := .pixels) h (by decide) hc
    exact runs_screen_writer hr (.inl hp)
  · obtain ⟨i, hr, hp⟩ := runs_of_changed (p := .changed) h (by decide) hc
    exact ⟨runs_screen_writer hr (.inr hp), step_chg_of_writer hr h hp⟩
  · cases hw : s.waitV with
    | false => exact runs_ldVxK_of_changed h hw fun hu => hc hu.2
    | true => exact absurd (step_waitX_of_waiting hw h) hc
  · exact runs_ldVxK_of_changed h hw fun hu => by rw [hu.1, hw] at ht; cases ht
  · exact pressed_of_wait_ended hw h ht
  · rintro ⟨x, kk, hr⟩
    exact step_draws_of_rnd hr h
  · by_contra hc
    obtain ⟨i, hr, hp⟩ := runs_of_changed (p := .draws) h (by decide) hc
    obtain ⟨x, kk, rfl⟩ := draws_writer hp
    exact hn ⟨x, kk, hr⟩

/-! ### Reachable states (R46, R261) -/

/-- The state after a cycle: the step's next state, or after an error the state before it (R236). -/
theorem executeCycle_state_cases (s : State) :
    (∃ t, step s = .next t ∧ (executeCycle s).1 = t) ∨ (executeCycle s).1 = s := by
  unfold executeCycle
  cases step s with
  | next t => exact .inl ⟨t, rfl, rfl⟩
  | fault | refused => exact .inr rfl

/-- The invariant holds of every reachable state. -/
theorem Reachable.inv {s : State} (h : Reachable s) : Inv s := by
  induction h with
  | reset => exact resetMeetsTheInvariant
  | @cycle s _ ih =>
    rcases executeCycle_state_cases s with ⟨t, hstep, ht⟩ | hkeep
    · exact ht ▸ stepKeepsTheInvariant s t ih hstep
    · exact hkeep.symm ▸ ih
  | host m _ ih => exact hostMovesKeepTheInvariant m _ ih

/-- R46, last clause: the key wait of `s` began in the reachable state `b`, whose cycle executed FX0A. -/
structure WaitsSince (b s : State) : Prop where
  reachable : Reachable b
  began : WaitBeganIn b s
  runs : Runs b (.ldVxK s.waitX)
  pc : s.pc = b.pc + 2

/-- A key wait that goes on in a state with the same marker and PC has the same origin. -/
theorem WaitsSince.lasts {b s t : State} (h : WaitsSince b s) (hbegan : WaitBeganIn b t) (hx : t.waitX = s.waitX)
    (hpc : t.pc = s.pc) : WaitsSince b t :=
  ⟨h.reachable, hbegan, hx ▸ h.runs, hpc.trans h.pc⟩

/-- The FX0A that a cycle executes from a reachable state is the origin of the wait it leaves. -/
theorem WaitsSince.issue {s t : State} (hr : Reachable s) (hw : s.waitV = false) (h : step s = .next t)
    (ht : t.waitV = true) : WaitsSince s t := by
  have hrun : Runs s (.ldVxK t.waitX) := runs_ldVxK_of_changed h hw fun hu => by rw [hu.1, hw] at ht; cases ht
  exact ⟨hr, .issue hw h ht, hrun, step_pc_of_not_writer hrun h (by simp [mayChange])⟩

/-- Every key wait of a reachable state has its origin. -/
theorem Reachable.waitsSince {s : State} (h : Reachable s) (hw : s.waitV = true) : ∃ b, WaitsSince b s := by
  induction h with
  | reset => cases hw
  | @cycle s hs ih =>
    rcases executeCycle_state_cases s with ⟨t, hstep, ht⟩ | hkeep
    · cases hsw : s.waitV with
      | false =>
        rw [ht] at hw ⊢
        exact ⟨s, .issue hs hsw hstep hw⟩
      | true =>
        obtain ⟨b, hb⟩ := ih hsw
        have hbegan := WaitBeganIn.cycle hb.began hw
        rw [ht] at hbegan ⊢
        exact ⟨b, hb.lasts hbegan (step_waitX_of_waiting hsw hstep) (step_pc_of_waiting hsw hstep)⟩
    · rw [hkeep] at hw ⊢
      exact ih hw
  | @host s m _ ih =>
    have hm : m ≠ .reset := by rintro rfl; cases hw
    have hu := hostMove_unchanged hm s
    obtain ⟨hv, hx⟩ := hu .wait (by decide)
    obtain ⟨b, hb⟩ := ih (hv ▸ hw)
    exact ⟨b, hb.lasts (.host m hb.began hw) hx (hu .pc (by decide))⟩

/-- Settles O60: the invariant and the origin of the key wait, each an induction over the reachable states. -/
theorem reachableStatesMeetTheBounds : Obligations.ReachableStatesMeetTheBounds := by
  intro s h
  refine ⟨Nat.le_of_lt_succ s.sp.isLt, h.inv.pcLe, h.inv.indexLe, h.inv.liveEntries, fun hw => ?_⟩
  obtain ⟨b, hb⟩ := h.waitsSince hw
  exact ⟨b, hb.reachable, hb.began, hb.runs, hb.pc⟩

/-! ### The count of draws (R40, R131) -/

/-- The state with another count of draws. -/
def State.setDraws (s : State) (n : Nat) : State := { s with draws := n }

/-- A change of the next state, if there is one. -/
def onNext (f : State → State) (o : Result) : Result :=
  match o with
  | .next t => .next (f t)
  | .fault e => .fault e
  | .refused r => .refused r

/-- The tick does not look at the draws. -/
theorem finish_onNext_setDraws (n : Nat) (o : Result) :
    finish (onNext (·.setDraws n) o) = onNext (·.setDraws n) (finish o) := by
  cases o <;> rfl

/-! The operands, and the shared operations that can end in an error, do not look at the draws. -/

section
variable (s : State) (n : Nat)

@[simp] theorem State.reg_setDraws (x : RegIx) : (s.setDraws n).reg x = s.reg x := rfl
@[simp] theorem indexAddr_setDraws : indexAddr (s.setDraws n) = indexAddr s := rfl
@[simp] theorem npc_setDraws : npc (s.setDraws n) = npc s := rfl
@[simp] theorem regsUpTo_setDraws (x : RegIx) : regsUpTo (s.setDraws n) x = regsUpTo s x := rfl
@[simp] theorem memRead_setDraws (a k : Nat) : memRead (s.setDraws n) a k = memRead s a k := rfl

theorem memWrite_setDraws (a : Nat) (bytes : List Byte) :
    memWrite (s.setDraws n) a bytes = (memWrite s a bytes).map (·.setDraws n) := by
  by_cases h : inBounds a bytes.length
  · rw [memWrite_inBounds h, memWrite_inBounds h]; rfl
  · rw [memWrite_outOfBounds h, memWrite_outOfBounds h]; rfl

theorem pushStack_setDraws (a : Word) :
    pushStack (s.setDraws n) a = (pushStack s a).map (·.setDraws n) := by
  by_cases h : s.sp.val < 16
  · rw [pushStack_ok a h]; exact pushStack_ok (s := s.setDraws n) a h
  · have hfull : s.sp.val = 16 := by omega
    rw [pushStack_full a hfull]; exact pushStack_full (s := s.setDraws n) a hfull

theorem popStack_setDraws :
    popStack (s.setDraws n) = (popStack s).map (fun p => (p.1, p.2.setDraws n)) := by
  by_cases h : s.sp.val = 0
  · rw [popStack_empty h]; exact popStack_empty (s := s.setDraws n) h
  · rw [popStack_ok h]; exact popStack_ok (s := s.setDraws n) h

theorem waitBranch_setDraws : waitBranch (s.setDraws n) = (waitBranch s).setDraws n := by
  cases hk : lowestPressed s with
  | some k => rw [waitBranch_of_pressed hk]; exact waitBranch_of_pressed (s := s.setDraws n) hk
  | none => rw [waitBranch_of_released hk]; exact waitBranch_of_released (s := s.setDraws n) hk

/-- Every instruction but CXKK answers the same whatever the count of draws is, and keeps it. -/
theorem exec_setDraws {i : Instr} (hi : ∀ x kk, i ≠ .rnd x kk) :
    exec i (s.setDraws n) = onNext (·.setDraws n) (exec i s) := by
  cases i with
  | rnd x kk => exact absurd rfl (hi x kk)
  | ret =>
    simp only [exec, execRet, popStack_setDraws]
    cases popStack s <;> rfl
  | call =>
    simp only [exec, execCall, npc_setDraws, pushStack_setDraws]
    cases pushStack s (npc s) <;> rfl
  | drw x y m =>
    simp only [exec, execDrw, indexAddr_setDraws, memRead_setDraws]
    cases memRead s (indexAddr s) m.toNat <;> rfl
  | ldInd x =>
    simp only [exec, execLdInd, indexAddr_setDraws, memRead_setDraws]
    cases memRead s (indexAddr s) (x.val + 1) <;> rfl
  | ldBVx x =>
    simp only [exec, execLdBVx, indexAddr_setDraws, State.reg_setDraws, memWrite_setDraws]
    cases memWrite s (indexAddr s) (decimalDigits (s.reg x)) <;> rfl
  | stInd x =>
    simp only [exec, execStInd, indexAddr_setDraws, regsUpTo_setDraws, memWrite_setDraws]
    cases memWrite s (indexAddr s) (regsUpTo s x) <;> rfl
  | skp | sknp | seKk | sneKk | seVy | sneVy =>
    simp only [exec, execSkp, execSknp, execSeKk, execSneKk, execSeVy, execSneVy, skipIf_eq]
    rfl
  | _ => rfl

/-- A step that executes no CXKK answers the same whatever the count of draws is, and keeps it. -/
theorem step_setDraws (h : ¬ ∃ x kk, Runs s (.rnd x kk)) :
    step (s.setDraws n) = onNext (·.setDraws n) (step s) := by
  rcases step_cases s with ⟨hw, hs⟩ | ⟨hw, e, hf, hs⟩ | ⟨hw, i, hf, hs⟩ <;> rw [hs]
  · rw [step_waiting (s := s.setDraws n) hw, waitBranch_setDraws]; rfl
  · exact step_fetchError (s := s.setDraws n) hw hf
  · have hi : ∀ x kk, i ≠ .rnd x kk := fun x kk hi => h ⟨x, kk, hw, hi ▸ hf⟩
    calc step (s.setDraws n)
      _ = finish (exec i ((advancePc s).setDraws n)) := step_exec (s := s.setDraws n) hw hf
      _ = onNext (·.setDraws n) (finish (exec i (advancePc s))) := by
        rw [exec_setDraws _ n hi, finish_onNext_setDraws]

end

/-- Settles O13: no operation but the draw itself looks at the count, so changing it commutes with the step. -/
theorem onlyRandomReadsTheDraws : Obligations.OnlyRandomReadsTheDraws := by
  intro s n h
  rw [show ({ s with draws := n } : State) = s.setDraws n from rfl, step_setDraws s n h]
  cases step s <;> rfl

end Sys2Proof.Machine

/-! ## Proofs of the family 20_memory: whole accesses (R63, R64) and the order of bytes in a word (R62) -/

namespace Sys2Proof.Machine

/-! ### Accesses -/

/-- The spec's wording of the bound: no byte, or the last byte's address is inside memory. -/
theorem inBounds_iff_last (a n : Nat) : inBounds a n ↔ n = 0 ∨ a + n - 1 ≤ 0xFFF := by
  simp only [inBounds, Config.maxAddr]
  omega

theorem not_inBounds_iff_last (a n : Nat) : ¬ inBounds a n ↔ n ≠ 0 ∧ 0xFFF < a + n - 1 := by
  rw [inBounds_iff_last, not_or, not_le]

section
variable {s : State} {a : Nat} {bytes : List Byte}

/-- After a range in bounds was written, the j-th byte stands at the j-th address. -/
theorem byteAt_writeBytes_add (hm : s.mem.wf) (hin : inBounds a bytes.length) {j : Nat} (hj : j < bytes.length) :
    (s.setMem (s.mem.writeBytes a bytes)).byteAt (a + j) = bytes[j] := by
  rw [byteAt_writeBytes hm hin, if_pos (by omega), Nat.add_sub_cancel_left, List.getD_eq_getElem _ _ hj]

theorem bytesSameOutside_writeBytes (hm : s.mem.wf) (hin : inBounds a bytes.length) :
    BytesSameOutside a bytes.length s (s.setMem (s.mem.writeBytes a bytes)) := fun b hb =>
  (byteAt_writeBytes hm hin b).trans (if_neg (by omega))

theorem getElem_readBytes {n j : Nat} (h : j < (s.mem.readBytes a n).length) :
    (s.mem.readBytes a n)[j] = s.byteAt (a + j) := by
  rw [← List.getD_eq_getElem _ 0 h, Memory.getD_readBytes _ _ _ _ (by simpa using h), State.byteAt]

end

/-- Settles O44: the bound is checked once for the whole range, and in bounds the range laws of memory apply. -/
theorem accessesAreCheckedWhole : Obligations.AccessesAreCheckedWhole := by
  intro s a hm
  refine ⟨fun bytes => ?_, fun n => ?_⟩
  · rw [← List.length_eq_zero_iff, Ne, ← List.length_eq_zero_iff]
    refine ⟨fun h => ?_, fun hne h => memWrite_outOfBounds ((not_inBounds_iff_last _ _).mpr ⟨hne, h⟩)⟩
    have hin := (inBounds_iff_last _ _).mpr h
    exact ⟨_, memWrite_inBounds hin, wf_writeBytes_inBounds hm hin, fun j => byteAt_writeBytes_add hm hin,
      bytesSameOutside_writeBytes hm hin, fun p hp => (unchanged_setMem s _ p hp).same⟩
  · refine ⟨fun h => ?_, fun hn h => memRead_outOfBounds ((not_inBounds_iff_last _ _).mpr ⟨by omega, h⟩)⟩
    exact ⟨_, memRead_inBounds ((inBounds_iff_last _ _).mpr h), Memory.length_readBytes _ _ _,
      fun j => getElem_readBytes⟩

/-! ### Words -/

/-- In bounds the fetch answers the word whose high byte stands at PC (R62). -/
theorem exists_fetchWord {s : State} (h : s.pc.toNat ≤ 0xFFE) : ∃ w, fetchWord s = .ok w ∧
    w.toNat = (s.byteAt s.pc.toNat).toNat * 256 + (s.byteAt (s.pc.toNat + 1)).toNat :=
  ⟨_, fetchWord_inBounds h, wordOfBytes_toNat _ _⟩

theorem fetchInstr_outOfBounds {s : State} (h : 0xFFE < s.pc.toNat) : fetchInstr s = .error .memoryOverflow := by
  rcases fetchInstr_cases s with ⟨-, he⟩ | ⟨hle, -⟩
  · exact he
  · omega

/-- Settles O8: the fetch is the model's word of two bytes in bounds, and its error ends the cycle otherwise. -/
theorem fetchReadsTwoBytesBigEndian : Obligations.FetchReadsTwoBytesBigEndian := fun _ =>
  ⟨exists_fetchWord, fun h hw => step_fetchError hw (fetchInstr_outOfBounds h)⟩

/-- FX55 leaves V0 to VX at the old I and up (R184). -/
theorem byteAt_of_stInd {x : RegIx} {s t : State} (hm : s.mem.wf) (h : exec (.stInd x) s = .next t) {r : RegIx}
    (hr : r ≤ x) : t.byteAt (s.i.toNat + r.val) = s.reg r := by
  obtain ⟨hin, -, rfl⟩ := exec_stInd_next h
  have hlt : r.val < (regsUpTo s x).length := by
    rw [length_regsUpTo]
    exact Nat.lt_succ_of_le hr
  rw [State.byteAt_setI, byteAt_writeBytes_add hm hin hlt, ← List.getD_eq_getElem _ 0 hlt, getD_regsUpTo _ _ _ hr]

/-- Settles O43: the word fetched at the old I is made of the bytes that FX55 stored there, V0 at the lower address. -/
theorem storedWordIsFetched : Obligations.StoredWordIsFetched := by
  intro x s t hm hx h
  obtain ⟨-, hle, -⟩ := exec_stInd_next h
  have hpc : (t.setPc s.i).pc.toNat ≤ 0xFFE := by
    rw [State.setPc_pc]
    omega
  have h0 : t.byteAt s.i.toNat = s.reg 0 := byteAt_of_stInd hm h (Fin.zero_le x)
  have h1 : t.byteAt (s.i.toNat + 1) = s.reg 1 := byteAt_of_stInd hm h (r := 1) hx
  have hw := exists_fetchWord hpc
  rwa [State.setPc_pc, State.byteAt_setPc, State.byteAt_setPc, h0, h1] at hw

end Sys2Proof.Machine

/-! ## Proofs of the family 30_encoding: the fields, the rows of R96 and the decoder, the shifts with a free Y field

The decoder is read through `decode_of_row`, `exists_row_of_decode` and `decode_illegal_iff`: a word decodes to what its
row builds, and it has at most one row. The words of a row are put together again from their fields format by format. -/

namespace Sys2Proof

/-! ### Fields as numbers (R91) -/

/-- Settles O1: each field is a slice of the word, a quotient by a power of two and a remainder. -/
theorem fieldsAreTheStatedBits : Obligations.FieldsAreTheStatedBits := by
  intro w
  simp [fieldX, fieldY, fieldN, fieldKK, fieldNNN, BitVec.extractLsb'_toNat, Nat.shiftRight_eq_div_pow]

/-! ### The rows are disjoint (R97) -/

/-- Two rows agree on the bits that both their masks read: only then can a word match both. -/
def Row.Agree (r q : Row) : Prop := r.val &&& q.mask = q.val &&& r.mask

theorem Row.matchesWord_iff {r : Row} {w : Word} : r.matchesWord w = true ↔ w &&& r.mask = r.val := by
  simp [Row.matchesWord]

theorem Row.agree_of_matchesWord {r q : Row} {w : Word} (hr : r.matchesWord w = true)
    (hq : q.matchesWord w = true) : r.Agree q := by
  rw [Row.matchesWord_iff] at hr hq
  rw [Row.Agree, ← hr, ← hq, BitVec.and_assoc, BitVec.and_assoc, BitVec.and_comm q.mask]

theorem opcodeRows_pairwise_not_agree : opcodeRows.Pairwise fun r q => ¬ r.Agree q := by
  unfold Row.Agree
  decide

theorem opcodeRows_nodup : opcodeRows.Nodup :=
  opcodeRows_pairwise_not_agree.imp fun h => by
    rintro rfl
    exact h rfl

/-- No word matches two different rows of the list. -/
def DisjointRows (rows : List Row) : Prop :=
  ∀ w, ∀ r ∈ rows, ∀ q ∈ rows, r.matchesWord w = true → q.matchesWord w = true → r = q

theorem disjointRows_opcodeRows : DisjointRows opcodeRows := by
  intro w r hr q hq hmr hmq
  by_contra hne
  have : Std.Symm fun r q : Row => ¬ r.Agree q := ⟨fun _ _ h h' => h h'.symm⟩
  exact opcodeRows_pairwise_not_agree.forall hr hq hne (Row.agree_of_matchesWord hmr hmq)

theorem DisjointRows.perm {rows rows' : List Row} (h : DisjointRows rows') (hp : rows.Perm rows') :
    DisjointRows rows := fun w r hr q hq => h w r (hp.mem_iff.mp hr) q (hp.mem_iff.mp hq)

/-! ### What the decoder answers (R95) -/

section
variable {rows : List Row} {w : Word}

theorem decodeWith_of_unmatched (h : ∀ r ∈ rows, r.matchesWord w = false) :
    decodeWith rows w = .error .illegal := by
  have hf : rows.find? (fun r => r.matchesWord w) = none := List.find?_eq_none.mpr fun r hr => by simp [h r hr]
  simp [decodeWith, hf]

/-- All that the decoder can answer: the instruction of a row the word matches, or that it matches none. -/
theorem decodeWith_cases (rows : List Row) (w : Word) :
    (∃ r ∈ rows, r.matchesWord w = true ∧ decodeWith rows w = .ok (r.build w)) ∨
    ((∀ r ∈ rows, r.matchesWord w = false) ∧ decodeWith rows w = .error .illegal) := by
  cases h : rows.find? (fun r => r.matchesWord w) with
  | some r =>
    have hm : r.matchesWord w = true := by simpa using List.find?_some h
    exact .inl ⟨r, List.mem_of_find?_eq_some h, hm, by simp [decodeWith, h]⟩
  | none =>
    have hn : ∀ r ∈ rows, r.matchesWord w = false := by simpa using h
    exact .inr ⟨hn, decodeWith_of_unmatched hn⟩

/-- With disjoint rows, the row that a word matches is the one the decoder takes, wherever it stands. -/
theorem decodeWith_of_matched (hd : DisjointRows rows) {r : Row} (hr : r ∈ rows) (hm : r.matchesWord w = true) :
    decodeWith rows w = .ok (r.build w) := by
  rcases decodeWith_cases rows w with ⟨q, hq, hmq, he⟩ | ⟨hn, -⟩
  · rw [he, hd w q hq r hr hmq hm]
  · rw [hn r hr] at hm; cases hm

theorem decodeWith_perm {rows' : List Row} (hd : DisjointRows rows') (hp : rows.Perm rows') (w : Word) :
    decodeWith rows w = decodeWith rows' w := by
  rcases decodeWith_cases rows' w with ⟨r, hr, hm, he⟩ | ⟨hn, he⟩ <;> rw [he]
  · exact decodeWith_of_matched (hd.perm hp) (hp.mem_iff.mpr hr) hm
  · exact decodeWith_of_unmatched fun r hr => hn r (hp.mem_iff.mp hr)

end

/-- Every word of a row of R96 decodes to the instruction the row builds. -/
theorem decode_of_row {r : Row} (hr : r ∈ opcodeRows) {w : Word} (hm : w &&& r.mask = r.val) :
    decode w = .ok (r.build w) :=
  decodeWith_of_matched disjointRows_opcodeRows hr (Row.matchesWord_iff.mpr hm)

/-- A word decodes to what the row that it matches builds. -/
theorem exists_row_of_decode {w : Word} {i : Instr} (h : decode w = .ok i) :
    ∃ r ∈ opcodeRows, w &&& r.mask = r.val ∧ i = r.build w := by
  rcases decodeWith_cases opcodeRows w with ⟨r, hr, hm, he⟩ | ⟨-, he⟩ <;> rw [decode, he] at h <;> cases h
  exact ⟨r, hr, Row.matchesWord_iff.mp hm, rfl⟩

theorem decode_illegal_iff {w : Word} :
    decode w = .error .illegal ↔ ∀ r ∈ opcodeRows, r.matchesWord w = false := by
  refine ⟨fun h => ?_, decodeWith_of_unmatched⟩
  rcases decodeWith_cases opcodeRows w with ⟨r, -, -, he⟩ | ⟨hn, -⟩
  · rw [decode, he] at h; cases h
  · exact hn

/-- Settles O4: distinct rows differ on a bit that both their masks read. -/
theorem opcodeRowsAreDisjoint : Obligations.OpcodeRowsAreDisjoint := by
  refine ⟨rfl, fun w j k hj hk => ?_, fun w rows hp => decodeWith_perm disjointRows_opcodeRows hp w⟩
  have he : opcodeRows[j] = opcodeRows[k] :=
    disjointRows_opcodeRows w _ (List.getElem_mem j.isLt) _ (List.getElem_mem k.isLt) hj hk
  exact Fin.ext (opcodeRows_nodup.getElem_inj_iff.mp he)

/-! ### An assembled instruction decodes to itself (R104) -/

/-- The law of every constructor, put together. -/
theorem rowMatch : ∀ i : Instr, Laws.RowMatch.Statement i
  | .cls => Laws.RowMatch.cls
  | .ret => Laws.RowMatch.ret
  | .jp nnn => Laws.RowMatch.jp nnn
  | .call nnn => Laws.RowMatch.call nnn
  | .seKk x kk => Laws.RowMatch.seKk x kk
  | .sneKk x kk => Laws.RowMatch.sneKk x kk
  | .seVy x y => Laws.RowMatch.seVy x y
  | .ldKk x kk => Laws.RowMatch.ldKk x kk
  | .addKk x kk => Laws.RowMatch.addKk x kk
  | .ldVy x y => Laws.RowMatch.ldVy x y
  | .orVy x y => Laws.RowMatch.orVy x y
  | .andVy x y => Laws.RowMatch.andVy x y
  | .xorVy x y => Laws.RowMatch.xorVy x y
  | .addVy x y => Laws.RowMatch.addVy x y
  | .sub x y => Laws.RowMatch.sub x y
  | .shr x y => Laws.RowMatch.shr x y
  | .subn x y => Laws.RowMatch.subn x y
  | .shl x y => Laws.RowMatch.shl x y
  | .sneVy x y => Laws.RowMatch.sneVy x y
  | .ldI nnn => Laws.RowMatch.ldI nnn
  | .jpV0 nnn => Laws.RowMatch.jpV0 nnn
  | .rnd x kk => Laws.RowMatch.rnd x kk
  | .drw x y n => Laws.RowMatch.drw x y n
  | .skp x => Laws.RowMatch.skp x
  | .sknp x => Laws.RowMatch.sknp x
  | .ldVxDt x => Laws.RowMatch.ldVxDt x
  | .ldVxK x => Laws.RowMatch.ldVxK x
  | .ldDtVx x => Laws.RowMatch.ldDtVx x
  | .ldStVx x => Laws.RowMatch.ldStVx x
  | .addIVx x => Laws.RowMatch.addIVx x
  | .ldFVx x => Laws.RowMatch.ldFVx x
  | .ldBVx x => Laws.RowMatch.ldBVx x
  | .stInd x => Laws.RowMatch.stInd x
  | .ldInd x => Laws.RowMatch.ldInd x

theorem decode_encode (i : Instr) : decode (encode i) = .ok i := by
  obtain ⟨r, hr, hm, hb⟩ := rowMatch i
  rw [decode_of_row hr (Row.matchesWord_iff.mp hm), hb]

/-- A byte sequence that begins with a word's two bytes decodes as the word does (R62, R90). -/
theorem decodeBytes_of_decode {w : Word} {i : Instr} (h : decode w = .ok i) (rest : List Byte) :
    decodeBytes (highByte w :: lowByte w :: rest) = .ok (i, rest) := by
  simp [decodeBytes, wordOfBytes_bytes, h]

/-- Settles O2: the word matches its instruction's row, which builds the operands back; no other row matches it. -/
theorem decodeUndoesEncode : Obligations.DecodeUndoesEncode := fun i =>
  ⟨decode_encode i, decodeBytes_of_decode (decode_encode i)⟩

/-! ### A word of a row is the word its instruction assembles to (R104) -/

/-- Every word with `(w AND mask) = val` is the word that `build w` assembles to. -/
def Reassembles (mask val : Word) (build : Word → Instr) : Prop := ∀ w, w &&& mask = val → encode (build w) = w

/-- The mask of a fixed word reads every bit. -/
theorem and_FFFF (w : Word) : w &&& 0xFFFF = w := BitVec.and_allOnes

/-! One lemma per format of R92: the fields of the format are the bits outside its mask. -/

section
variable {v : Word}

theorem reassembles_fixed {i : Instr} (h : encode i = v) : Reassembles 0xFFFF v (fun _ => i) := by
  intro w hw
  rw [← and_FFFF w, hw, h]

theorem reassembles_nnn {c : Lit12 → Instr} (h : ∀ a, encode (c a) = v ||| a.setWidth 16) :
    Reassembles 0xF000 v (fun w => c (fieldNNN w)) := by
  intro w hw
  rw [h, ← hw, setWidth_fieldNNN, ← BitVec.and_or_distrib_left]
  exact and_FFFF w

theorem reassembles_xkk {c : RegIx → Byte → Instr}
    (h : ∀ x kk, encode (c x kk) = v ||| placeReg x 8 ||| kk.setWidth 16) :
    Reassembles 0xF000 v (fun w => c (fieldX w) (fieldKK w)) := by
  intro w hw
  rw [h, ← hw, placeReg_fieldX, setWidth_fieldKK, ← BitVec.and_or_distrib_left, ← BitVec.and_or_distrib_left]
  exact and_FFFF w

theorem reassembles_xyn {c : RegIx → RegIx → Nibble → Instr}
    (h : ∀ x y n, encode (c x y n) = v ||| placeReg x 8 ||| placeReg y 4 ||| n.setWidth 16) :
    Reassembles 0xF000 v (fun w => c (fieldX w) (fieldY w) (fieldN w)) := by
  intro w hw
  rw [h, ← hw, placeReg_fieldX, placeReg_fieldY, setWidth_fieldN,
    ← BitVec.and_or_distrib_left, ← BitVec.and_or_distrib_left, ← BitVec.and_or_distrib_left]
  exact and_FFFF w

theorem reassembles_xys {c : RegIx → RegIx → Instr}
    (h : ∀ x y, encode (c x y) = v ||| placeReg x 8 ||| placeReg y 4) :
    Reassembles 0xF00F v (fun w => c (fieldX w) (fieldY w)) := by
  intro w hw
  rw [h, ← hw, placeReg_fieldX, placeReg_fieldY, ← BitVec.and_or_distrib_left, ← BitVec.and_or_distrib_left]
  exact and_FFFF w

theorem reassembles_xss {c : RegIx → Instr} (h : ∀ x, encode (c x) = v ||| placeReg x 8) :
    Reassembles 0xF0FF v (fun w => c (fieldX w)) := by
  intro w hw
  rw [h, ← hw, placeReg_fieldX, ← BitVec.and_or_distrib_left]
  exact and_FFFF w

end

theorem rowsFlow_reassemble : ∀ r ∈ rowsFlow, Reassembles r.mask r.val r.build := by
  simp only [rowsFlow, List.forall_mem_cons]
  exact ⟨reassembles_fixed rfl, reassembles_fixed rfl, reassembles_nnn fun _ => rfl, reassembles_nnn fun _ => rfl,
    reassembles_xkk fun _ _ => rfl, reassembles_xkk fun _ _ => rfl, reassembles_xys fun _ _ => rfl,
    reassembles_xkk fun _ _ => rfl, reassembles_xkk fun _ _ => rfl, List.forall_mem_nil _⟩

theorem rowsAlu_reassemble : ∀ r ∈ rowsAlu, Reassembles r.mask r.val r.build := by
  simp only [rowsAlu, List.forall_mem_cons]
  refine ⟨?_, ?_, ?_, ?_, ?_, ?_, ?_, ?_, ?_, List.forall_mem_nil _⟩ <;> exact reassembles_xys fun _ _ => rfl

theorem rowsMiddle_reassemble : ∀ r ∈ rowsMiddle, Reassembles r.mask r.val r.build := by
  simp only [rowsMiddle, List.forall_mem_cons]
  exact ⟨reassembles_xys fun _ _ => rfl, reassembles_nnn fun _ => rfl, reassembles_nnn fun _ => rfl,
    reassembles_xkk fun _ _ => rfl, reassembles_xyn fun _ _ _ => rfl, reassembles_xss fun _ => rfl,
    reassembles_xss fun _ => rfl, List.forall_mem_nil _⟩

theorem rowsMisc_reassemble : ∀ r ∈ rowsMisc, Reassembles r.mask r.val r.build := by
  simp only [rowsMisc, List.forall_mem_cons]
  refine ⟨?_, ?_, ?_, ?_, ?_, ?_, ?_, ?_, ?_, List.forall_mem_nil _⟩ <;> exact reassembles_xss fun _ => rfl

/-- A property of every row of R96, from its four parts. -/
theorem forall_opcodeRows {P : Row → Prop} : (∀ r ∈ opcodeRows, P r) ↔
    (∀ r ∈ rowsFlow, P r) ∧ (∀ r ∈ rowsAlu, P r) ∧ (∀ r ∈ rowsMiddle, P r) ∧ ∀ r ∈ rowsMisc, P r := by
  simp only [opcodeRows, List.forall_mem_append, and_assoc]

theorem opcodeRows_reassemble : ∀ r ∈ opcodeRows, Reassembles r.mask r.val r.build :=
  forall_opcodeRows.mpr ⟨rowsFlow_reassemble, rowsAlu_reassemble, rowsMiddle_reassemble, rowsMisc_reassemble⟩

/-- Settles O3: the word matches a row, and each row's instruction assembles back to the word. -/
theorem encodeUndoesDecode : Obligations.EncodeUndoesDecode := by
  intro w i h
  obtain ⟨r, hr, hm, rfl⟩ := exists_row_of_decode h
  exact opcodeRows_reassemble r hr w hm

/-! ### The illegal words (R98) -/

/-- The mask of the family as a number: bits 15:12, the others read as 0. -/
theorem toNat_and_F000 (w : Word) : (w &&& 0xF000#16).toNat = w.toNat / 4096 * 4096 := by
  have h : w &&& 0xF000#16 = w >>> 12 <<< 12 := by
    refine BitVec.eq_of_getLsbD_eq fun k hk => ?_
    simp only [BitVec.getLsbD_shiftLeft, BitVec.getLsbD_ushiftRight, BitVec.getLsbD_and]
    interval_cases k <;> simp
  have := w.isLt
  rw [h, BitVec.toNat_shiftLeft, BitVec.toNat_ushiftRight, Nat.shiftRight_eq_div_pow, Nat.shiftLeft_eq]
  omega

/-- A mask that reads the family and other bits reads both as one number. -/
theorem toNat_and_family_or {w m : Word} (hm : 0xF000#16 &&& m = 0#16) :
    (w &&& (0xF000#16 ||| m)).toNat = w.toNat / 4096 * 4096 + (w &&& m).toNat := by
  have hd : (w &&& 0xF000#16) &&& (w &&& m) = 0#16 := by
    rw [BitVec.and_comm w m, ← BitVec.and_assoc, BitVec.and_assoc w, hm, BitVec.and_zero, BitVec.zero_and]
  rw [BitVec.and_or_distrib_left, ← BitVec.add_eq_or_of_and_eq_zero _ _ hd, BitVec.toNat_add_of_and_eq_zero hd,
    toNat_and_F000]

theorem toNat_and_000F (w : Word) : (w &&& 0x000F#16).toNat = w.toNat % 16 :=
  (BitVec.toNat_and _ _).trans (Nat.and_two_pow_sub_one_eq_mod _ 4)

theorem toNat_and_00FF (w : Word) : (w &&& 0x00FF#16).toNat = w.toNat % 256 :=
  (BitVec.toNat_and _ _).trans (Nat.and_two_pow_sub_one_eq_mod _ 8)

/-! The test of a row (R95) as one of numbers, for each mask of R96. -/

section
variable {w v : Word}

theorem and_FFFF_eq_iff : w &&& 0xFFFF#16 = v ↔ w.toNat = v.toNat := by
  rw [BitVec.toNat_inj]
  exact Eq.congr_left (and_FFFF w)

theorem and_F000_eq_iff : w &&& 0xF000#16 = v ↔ w.toNat / 4096 * 4096 = v.toNat := by
  rw [← toNat_and_F000, BitVec.toNat_inj]

theorem and_F00F_eq_iff : w &&& 0xF00F#16 = v ↔ w.toNat / 4096 * 4096 + w.toNat % 16 = v.toNat := by
  rw [← toNat_and_000F, ← toNat_and_family_or (by decide)]
  exact BitVec.toNat_inj.symm

theorem and_F0FF_eq_iff : w &&& 0xF0FF#16 = v ↔ w.toNat / 4096 * 4096 + w.toNat % 256 = v.toNat := by
  rw [← toNat_and_00FF, ← toNat_and_family_or (by decide)]
  exact BitVec.toNat_inj.symm

end

theorem Row.unmatched_iff {r : Row} {w : Word} : r.matchesWord w = false ↔ w &&& r.mask ≠ r.val := by
  rw [← Bool.not_eq_true, Row.matchesWord_iff]

/-! The words of no row, table by table. -/

section
variable (w : Word)

theorem rowsFlow_unmatched_iff : (∀ r ∈ rowsFlow, r.matchesWord w = false) ↔
    w.toNat ≠ 0x00E0 ∧ w.toNat ≠ 0x00EE ∧ w.toNat / 4096 ∉ [1, 2, 3, 4, 6, 7] ∧
      (w.toNat / 4096 = 5 → w.toNat % 16 ≠ 0) := by
  simp [rowsFlow, Row.unmatched_iff, and_FFFF_eq_iff, and_F000_eq_iff, and_F00F_eq_iff]
  omega

theorem rowsAlu_unmatched_iff : (∀ r ∈ rowsAlu, r.matchesWord w = false) ↔
    (w.toNat / 4096 = 8 → w.toNat % 16 ∉ [0, 1, 2, 3, 4, 5, 6, 7, 14]) := by
  simp [rowsAlu, Row.unmatched_iff, and_F00F_eq_iff]
  omega

theorem rowsMiddle_unmatched_iff : (∀ r ∈ rowsMiddle, r.matchesWord w = false) ↔
    (w.toNat / 4096 = 9 → w.toNat % 16 ≠ 0) ∧ w.toNat / 4096 ∉ [10, 11, 12, 13] ∧
      (w.toNat / 4096 = 14 → w.toNat % 256 ∉ [0x9E, 0xA1]) := by
  simp [rowsMiddle, Row.unmatched_iff, and_F000_eq_iff, and_F00F_eq_iff, and_F0FF_eq_iff]
  omega

theorem rowsMisc_unmatched_iff : (∀ r ∈ rowsMisc, r.matchesWord w = false) ↔
    (w.toNat / 4096 = 15 → w.toNat % 256 ∉ [0x07, 0x0A, 0x15, 0x18, 0x1E, 0x29, 0x33, 0x55, 0x65]) := by
  simp [rowsMisc, Row.unmatched_iff, and_F0FF_eq_iff]
  omega

end

/-- Settles O5: an illegal word matches no row of any table, and each table names the words it leaves out; in each of
the 16 families, bits 15:12, that is the clause of R98. -/
theorem illegalWordsAreThoseOfTheTable : Obligations.IllegalWordsAreThoseOfTheTable := by
  intro w
  rw [decode_illegal_iff, forall_opcodeRows, rowsFlow_unmatched_iff, rowsAlu_unmatched_iff,
    rowsMiddle_unmatched_iff, rowsMisc_unmatched_iff]
  have hfamily : w.toNat / 4096 < 16 := Nat.div_lt_of_lt_mul w.isLt
  interval_cases h : w.toNat / 4096 <;> simp <;> omega

end Sys2Proof

namespace Sys2Proof.Machine

/-! ### Words and registers of an instruction that writes a flag -/

/-- Every word of the k-th row of R96 decodes to the instruction the row builds. -/
theorem wordsOf_row (k : Nat) (hk : k < opcodeRows.length) :
    WordsOf opcodeRows[k].mask opcodeRows[k].val opcodeRows[k].build := fun _ =>
  decode_of_row (List.getElem_mem hk)

/-- A frame over whole fields is a frame over what they read as. -/
theorem UnchangedExcept.sameExcept {ps : List Part} {s t : State} (h : UnchangedExcept ps s t) :
    SameExcept ps s t := fun p hp => (h p hp).same

section
variable (s : State) (f : Byte) (x : RegIx) (b : Byte)

theorem reg_writeFlagThenReg_self : (writeFlagThenReg s f x b).reg x = b := by
  rw [reg_writeFlagThenReg, if_pos rfl]

variable {x} in
/-- The flag stands in VF unless the result was written there (R126). -/
theorem reg_writeFlagThenReg_vf (hx : x ≠ 15) : (writeFlagThenReg s f x b).reg 15 = f := by
  rw [reg_writeFlagThenReg, if_neg hx.symm]
  rfl

/-- A flag and a result change no register but VF and V[X], and nothing else. -/
theorem frame_writeFlagThenReg :
    RegsSameExcept [x, 15] s (writeFlagThenReg s f x b) ∧ SameExcept [.regs] s (writeFlagThenReg s f x b) := by
  refine ⟨fun r hr => ?_, (unchanged_writeFlagThenReg s f x b).sameExcept⟩
  obtain ⟨hx, hf⟩ : r ≠ x ∧ r ≠ vf := by simpa [vf] using hr
  rw [reg_writeFlagThenReg, if_neg hx, if_neg hf]

end

/-! ### Shifts (R168, R170) -/

theorem toNat_flagByte (c : Bool) : (flagByte c).toNat = c.toNat := by cases c <;> rfl

theorem toNat_shiftedOutRight (a : Byte) : (shiftedOutRight a).toNat = a.toNat % 2 :=
  (BitVec.toNat_and _ _).trans (Nat.and_one_is_mod _)

theorem toNat_shiftedOutLeft (a : Byte) : (shiftedOutLeft a).toNat = a.toNat / 128 := by
  have := a.isLt
  rw [shiftedOutLeft, toNat_flagByte, BitVec.getLsbD, Nat.toNat_testBit]
  omega

/-- Settles O34: each shift writes the bit shifted out and then the shifted value. -/
theorem shiftsReportTheBitShiftedOut : Obligations.ShiftsReportTheBitShiftedOut := by
  refine ⟨wordsOf_row 15 (by decide), wordsOf_row 17 (by decide), fun x y s =>
    ⟨⟨_, exec_shr s x y, ?_, fun hx => ?_, frame_writeFlagThenReg s _ x _⟩,
      ⟨_, exec_shl s x y, ?_, fun hx => ?_, frame_writeFlagThenReg s _ x _⟩⟩⟩
  · rw [reg_writeFlagThenReg_self, BitVec.toNat_ushiftRight, Nat.shiftRight_eq_div_pow]
  · rw [reg_writeFlagThenReg_vf _ _ _ hx, toNat_shiftedOutRight]
  · rw [reg_writeFlagThenReg_self, BitVec.toNat_shiftLeft, Nat.shiftLeft_eq]
  · rw [reg_writeFlagThenReg_vf _ _ _ hx, toNat_shiftedOutLeft]

end Sys2Proof.Machine

/-! ## Proofs of the family 40_cycle_and_fetch: the cycle, its tick and its outcome, the key wait

A cycle that begins in the key wait is `step_of_released` or `step_of_pressed`; every other completing cycle is
`exec_of_runs`. The tick is the last thing of each, and a wait of any length is a number of ticks. -/

namespace Sys2Proof.Machine

/-! ### Fetch and execute (R121) -/

theorem fetchInstr_of_decode {s : State} {i : Instr} (hpc : s.pc.toNat ≤ 0xFFE)
    (h : decode (wordOfBytes (s.byteAt s.pc.toNat) (s.byteAt (s.pc.toNat + 1))) = .ok i) : fetchInstr s = .ok i := by
  simp [fetchInstr, fetchWord_inBounds hpc, h]

/-- Settles O7: the tick is applied to the next state of `exec`, and to nothing else. -/
theorem stepRunsTheInstructionAtPc : Obligations.StepRunsTheInstructionAtPc := by
  intro s i hw hpc hd
  rw [step_exec hw (fetchInstr_of_decode hpc hd)]
  show finish (exec i { s with pc := s.pc + 2 }) = _
  cases exec i { s with pc := s.pc + 2 } <;> rfl

/-- No instruction is refused: 28 always complete, the other six complete or end in an error. -/
theorem exec_ne_refused (i : Instr) (s : State) (r : Refusal) : exec i s ≠ .refused r := by
  intro h
  cases i with
  | ret => rcases exec_ret_cases s with ⟨-, he⟩ | ⟨_, he⟩ <;> rw [he] at h <;> cases h
  | call nnn => rcases exec_call_cases s nnn with ⟨-, he⟩ | ⟨_, he⟩ <;> rw [he] at h <;> cases h
  | drw x y n => rcases exec_drw_cases s x y n with ⟨-, -, he⟩ | ⟨-, he⟩ <;> rw [he] at h <;> cases h
  | ldBVx x => rcases exec_ldBVx_cases s x with ⟨-, he⟩ | ⟨-, -, he⟩ <;> rw [he] at h <;> cases h
  | stInd x => rcases exec_stInd_cases s x with ⟨-, he⟩ | ⟨-, -, he⟩ <;> rw [he] at h <;> cases h
  | ldInd x => rcases exec_ldInd_cases s x with ⟨-, he⟩ | ⟨-, he⟩ <;> rw [he] at h <;> cases h
  | _ => cases h

/-- Settles O18: the key wait answers a next state, a failed fetch an error, and no instruction is refused. -/
theorem noStepIsRefused : Obligations.NoStepIsRefused := by
  intro s r h
  rcases step_cases s with ⟨-, hs⟩ | ⟨-, e, -, hs⟩ | ⟨-, i, -, hs⟩ <;> rw [hs] at h
  · cases h
  · cases h
  · exact exec_ne_refused _ _ _ (finish_refused.mp h)

/-- Settles O19: the host is given back the state the cycle began in, so the further cycle is the same one. -/
theorem errorsLeaveTheStateAndRepeat : Obligations.ErrorsLeaveTheStateAndRepeat := by
  intro s e h
  have hc : executeCycle s = (s, .err e) := executeCycle_fault h
  exact ⟨hc, by rw [hc, hc]⟩

/-! ### Cycles that begin in the key wait (R122) -/

/-- The state after a cycle that begins in the key wait and finds key k. -/
def keyTaken (s : State) (k : KeyIx) : State := timerTick (s.setReg s.waitX (BitVec.ofNat 8 k.val)).endWait

section
variable (s : State) (k : KeyIx)

theorem keyTaken_unchanged : UnchangedExcept [.regs, .wait, .delay, .sound] s (keyTaken s k) :=
  (unchanged_setReg s _ _).append ((unchanged_endWait _).append (unchanged_timerTick _))

theorem toNat_reg_keyTaken : ((keyTaken s k).reg s.waitX).toNat = k.val := by
  rw [keyTaken, reg_timerTick, State.reg_endWait, State.reg_setReg, if_pos rfl, BitVec.toNat_ofNat]
  omega

theorem keyTaken_regs : RegsSameExcept [s.waitX] s (keyTaken s k) := fun _ hr =>
  reg_setReg_of_ne (by simpa using hr)

variable {s k}

theorem step_of_pressed (hw : s.waitV = true) (hk : lowestPressed s = some k) : step s = .next (keyTaken s k) := by
  rw [step_waiting hw, waitBranch_of_pressed hk, keyTaken]

theorem step_of_released (hw : s.waitV = true) (hk : ∀ k, s.key.get k = false) : step s = .next (timerTick s) := by
  rw [step_waiting hw, waitBranch_of_released (lowestPressed_none.mpr hk)]

end

/-- Settles O9: with no key found the cycle is the tick alone. -/
theorem waitWithoutKeyOnlyTicks : Obligations.WaitWithoutKeyOnlyTicks := fun s hw hk =>
  ⟨_, step_of_released hw hk, tickTimer_toNat s.dt, tickTimer_toNat s.st, (unchanged_timerTick s).sameExcept⟩

/-- Settles O10: the key found is the lowest pressed one, and one register and the marker are written before the
tick. -/
theorem waitTakesTheLowestPressedKey : Obligations.WaitTakesTheLowestPressedKey := fun s k hw hk hlow =>
  ⟨keyTaken s k, step_of_pressed hw (lowestPressed_some.mpr ⟨hk, hlow⟩), toNat_reg_keyTaken s k, keyTaken_regs s k,
    rfl, rfl, tickTimer_toNat s.dt, tickTimer_toNat s.st, (keyTaken_unchanged s k).sameExcept⟩

/-! ### The tick (R127) -/

theorem delay_writer {i : Instr} (h : Part.delay ∈ mayChange i) : ∃ x, i = .ldDtVx x := by
  cases i <;> simp_all [mayChange]

theorem sound_writer {i : Instr} (h : Part.sound ∈ mayChange i) : ∃ x, i = .ldStVx x := by
  cases i <;> simp_all [mayChange]

section
variable {s t : State} {x : RegIx}

/-- A completing cycle ends with the tick; what differs before it, PC and the key wait's writes apart, was changed by
an instruction that may. -/
theorem step_ends_with_tick {p : Part} (hp : p ∉ [.pc, .regs, .wait]) (h : step s = .next t) :
    ∃ u, t = timerTick u ∧ (p.unchanged s u ∨ ∃ i, Runs s i ∧ p ∈ mayChange i) := by
  rcases waiting_or_runs h with ⟨-, rfl⟩ | ⟨i, hr⟩
  · exact ⟨_, rfl, .inl (waitBranch_unchanged s p (by simp_all))⟩
  · obtain ⟨u, hu, rfl⟩ := exec_of_runs hr h
    refine ⟨u, rfl, or_iff_not_imp_right.mpr fun hn => ?_⟩
    have hi : p ∉ mayChange i := fun hm => hn ⟨i, hr, hm⟩
    exact (unchanged_setPc s _).append (exec_unchanged hu) p (by simp_all)

theorem step_dt_of_ldDtVx (hr : Runs s (.ldDtVx x)) (h : step s = .next t) : t.dt = tickTimer (s.reg x) := by
  obtain ⟨u, hu, rfl⟩ := exec_of_runs hr h
  cases hu
  rfl

theorem step_st_of_ldStVx (hr : Runs s (.ldStVx x)) (h : step s = .next t) : t.st = tickTimer (s.reg x) := by
  obtain ⟨u, hu, rfl⟩ := exec_of_runs hr h
  cases hu
  rfl

theorem step_dt_of_not_writer (hn : ¬ ∃ x, Runs s (.ldDtVx x)) (h : step s = .next t) : t.dt = tickTimer s.dt := by
  obtain ⟨u, rfl, hd | ⟨i, hr, hp⟩⟩ := step_ends_with_tick (p := .delay) (by decide) h
  · rw [timerTick_dt, show u.dt = s.dt from hd]
  · obtain ⟨x, rfl⟩ := delay_writer hp
    exact absurd ⟨x, hr⟩ hn

theorem step_st_of_not_writer (hn : ¬ ∃ x, Runs s (.ldStVx x)) (h : step s = .next t) : t.st = tickTimer s.st := by
  obtain ⟨u, rfl, hd | ⟨i, hr, hp⟩⟩ := step_ends_with_tick (p := .sound) (by decide) h
  · rw [timerTick_st, show u.st = s.st from hd]
  · obtain ⟨x, rfl⟩ := sound_writer hp
    exact absurd ⟨x, hr⟩ hn

end

/-- Settles O11: each timer after the cycle is the tick of V[X] after its own writer, and of its old value else. -/
theorem timersTickOncePerCycle : Obligations.TimersTickOncePerCycle := by
  intro s t h
  refine ⟨fun x hr => ?_, fun hn => ?_, fun x hr => ?_, fun hn => ?_⟩
  · rw [step_dt_of_ldDtVx hr h, tickTimer_toNat]
  · rw [step_dt_of_not_writer hn h, tickTimer_toNat]
  · rw [step_st_of_ldStVx hr h, tickTimer_toNat]
  · rw [step_st_of_not_writer hn h, tickTimer_toNat]

/-- Settles O52: each of the three writes one register or timer, from the state before the tick. -/
theorem timerRegistersAreReadAndSet : Obligations.TimerRegistersAreReadAndSet := by
  refine ⟨wordsOf_row 25 (by decide), wordsOf_row 27 (by decide), wordsOf_row 28 (by decide), fun x s =>
    ⟨⟨_, exec_ldVxDt s x, ?_, tickTimer_toNat s.dt, fun r hr => ?_, (unchanged_setReg s x _).sameExcept⟩,
      ⟨_, exec_ldDtVx s x, rfl, tickTimer_toNat (s.reg x), (unchanged_setDt s _).sameExcept⟩,
      ⟨_, exec_ldStVx s x, rfl, tickTimer_toNat (s.reg x), (unchanged_setSt s _).sameExcept⟩⟩⟩
  · rw [State.reg_setReg, if_pos rfl]
  · exact reg_setReg_of_ne (by simpa using hr)

/-! ### The outcome (R128) -/

section
variable {s t : State}

/-- The cycle that executes FX0A: past the word, the marker set, one tick (R212). -/
theorem step_ldVxK {x : RegIx} (hr : Runs s (.ldVxK x)) :
    step s = .next (timerTick ((s.setPc (s.pc + 2)).beginWait x)) := step_exec hr.1 hr.2

theorem executeCycle_awaiting_iff :
    (executeCycle s).2 = .ok .awaitingKeyInput ↔ ∃ t, step s = .next t ∧ t.waitV = true := by
  cases h : step s with
  | next t => simp [executeCycle_next h, outcomeAfter]
  | fault e => simp [executeCycle_fault h]
  | refused r => exact absurd h (noStepIsRefused s r)

/-- The key wait goes on only with every key released (R122). -/
theorem released_of_wait_lasts (hw : s.waitV = true) (h : step s = .next t) (ht : t.waitV = true) :
    ∀ k, s.key.get k = false := by
  cases hk : lowestPressed s with
  | some k =>
    rw [step_of_pressed hw hk] at h
    cases h
    cases ht
  | none => exact lowestPressed_none.mp hk

end

/-- Settles O12: the marker is set after a cycle that set it, or that began with it and found no key. -/
theorem awaitingOutcomeExactlyWhenWaiting : Obligations.AwaitingOutcomeExactlyWhenWaiting := by
  intro s
  rw [executeCycle_awaiting_iff]
  constructor
  · rintro ⟨t, h, ht⟩
    cases hw : s.waitV with
    | true => exact .inr ⟨rfl, released_of_wait_lasts hw h ht⟩
    | false => exact .inl ⟨t.waitX, runs_ldVxK_of_changed h hw fun hu => by rw [hu.1, hw] at ht; cases ht⟩
  · rintro (⟨x, hr⟩ | ⟨hw, hk⟩)
    · exact ⟨_, step_ldVxK hr, rfl⟩
    · exact ⟨_, step_of_released hw hk, hw⟩

/-! ### A key wait of any length (R122, R212) -/

section
variable (s : State)

theorem unchanged_iterate_timerTick (n : Nat) : UnchangedExcept [.delay, .sound] s (timerTick^[n] s) := by
  induction n with
  | zero => exact fun p _ => UnchangedExcept.refl s p (by simp)
  | succ n ih =>
    rw [Function.iterate_succ_apply']
    exact fun p hp => (ih p hp).trans (unchanged_timerTick _ p hp)

theorem toNat_iterate_timerTick_dt (n : Nat) : (timerTick^[n] s).dt.toNat = s.dt.toNat - n := by
  induction n with
  | zero => rfl
  | succ n ih => rw [Function.iterate_succ_apply', timerTick_dt, tickTimer_toNat, ih, Nat.sub_sub]

theorem toNat_iterate_timerTick_st (n : Nat) : (timerTick^[n] s).st.toNat = s.st.toNat - n := by
  induction n with
  | zero => rfl
  | succ n ih => rw [Function.iterate_succ_apply', timerTick_st, tickTimer_toNat, ih, Nat.sub_sub]

variable {s}

/-- While every key is released, a run in the key wait only ticks. -/
theorem run_of_released (n : Nat) (hw : s.waitV = true) (hk : ∀ k, s.key.get k = false) :
    core.run n s = .next (timerTick^[n] s) := by
  induction n generalizing s with
  | zero => rfl
  | succ n ih => exact (run_next n (step_of_released hw hk)).trans (ih hw hk)

/-- The state in the key wait of an FX0A after n ticks, the FX0A's own included, with no key pressed. -/
def waitedFor (s : State) (x : RegIx) (n : Nat) : State := timerTick^[n] ((s.setPc (s.pc + 2)).beginWait x)

theorem run_ldVxK {x : RegIx} (n : Nat) (hr : Runs s (.ldVxK x)) (hk : ∀ k, s.key.get k = false) :
    core.run (n + 1) s = .next (waitedFor s x (n + 1)) :=
  (run_next n (step_ldVxK hr)).trans (run_of_released n rfl hk)

variable (s) (x : RegIx) (n : Nat)

theorem waitedFor_unchanged : UnchangedExcept [.pc, .wait, .delay, .sound] s (waitedFor s x n) :=
  (unchanged_setPc s _).append ((unchanged_beginWait _ x).append (unchanged_iterate_timerTick _ n))

theorem waitedFor_wait : (waitedFor s x n).waitV = true ∧ (waitedFor s x n).waitX = x :=
  unchanged_iterate_timerTick _ n .wait (by decide)

theorem waitedFor_pc : (waitedFor s x n).pc = s.pc + 2 := unchanged_iterate_timerTick _ n .pc (by decide)

theorem toNat_waitedFor_dt : (waitedFor s x n).dt.toNat = s.dt.toNat - n := toNat_iterate_timerTick_dt _ n

theorem toNat_waitedFor_st : (waitedFor s x n).st.toNat = s.st.toNat - n := toNat_iterate_timerTick_st _ n

end

/-- Reading a key after the host set one (R246). -/
theorem key_get_setKey (k j : KeyIx) (pressed : Bool) (s : State) :
    (setKey k pressed s).key.get j = if j = k then pressed else s.key.get j := by
  simp only [setKey, State.setKeyBit_key, Vector.get_eq_getElem, Vector.getElem_set, Fin.ext_iff, eq_comm]

/-- With every other key released, the key that the host presses is the one found. -/
theorem lowestPressed_setKey {s : State} (k : KeyIx) (hk : ∀ j, s.key.get j = false) :
    lowestPressed (setKey k true s) = some k := by
  refine lowestPressed_some.mpr ⟨?_, fun j hj => ?_⟩
  · rw [key_get_setKey, if_pos rfl]
  · rw [key_get_setKey, if_neg hj.ne, hk]

/-- Settles O51: FX0A and the idle cycles are one tick each, and the key pressed then is the one taken. -/
theorem keyWaitRunsToItsEnd : Obligations.KeyWaitRunsToItsEnd := by
  intro s x k w hr hk
  have hframe := waitedFor_unchanged s x (w + 1)
  obtain ⟨hwait, hx⟩ := waitedFor_wait s x (w + 1)
  have hpc := waitedFor_pc s x (w + 1)
  have hdt := toNat_waitedFor_dt s x (w + 1)
  have hst := toNat_waitedFor_st s x (w + 1)
  refine ⟨_, run_ldVxK w hr hk, hwait, hx, hpc, hdt, hst, hframe.sameExcept, ?_⟩
  generalize waitedFor s x (w + 1) = t at *
  subst hx
  have hkeys : t.key = s.key := hframe .keys (by decide)
  have hset : UnchangedExcept [.keys] t (setKey k true t) := unchanged_setKeyBit t k true
  refine ⟨keyTaken (setKey k true t) k, step_of_pressed hwait (lowestPressed_setKey k (hkeys ▸ hk)),
    toNat_reg_keyTaken _ k, fun r hr => ?_, rfl, hpc, ?_, ?_, ?_⟩
  · exact (keyTaken_regs _ k r hr).trans ((hframe .regs (by decide)).same r)
  · exact (tickTimer_toNat t.dt).trans (by omega)
  · exact (tickTimer_toNat t.st).trans (by omega)
  · exact (hframe.append (hset.append (keyTaken_unchanged _ k))).sameExcept.mono (by simp)

end Sys2Proof.Machine

/-! ## Proofs of the family 41_control_flow: jumps, skips, the call and the return

Every word of a row decodes by `wordsOf_row`. A jump or a skip is one write of PC, by the equation of its instruction;
2NNN and 00EE write the stack as well, or end in their error, by the two cases of each. -/

namespace Sys2Proof.Machine

/-! ### Jumps (R141, R147) -/

/-- Settles O24: PC receives NNN zero-extended. -/
theorem jumpLoadsPc : Obligations.JumpLoadsPc :=
  ⟨wordsOf_row 2 (by decide), fun nnn s =>
    ⟨_, exec_jp s nnn, addrOf_toNat nnn, (unchanged_setPc s _).sameExcept⟩⟩

/-- Settles O29: a 12-bit and an 8-bit number have a sum that 16 bits hold. -/
theorem indexedJumpAddsVZero : Obligations.IndexedJumpAddsVZero :=
  ⟨wordsOf_row 20 (by decide), fun nnn s =>
    ⟨_, exec_jpV0 s nnn, addrPlus_toNat nnn _, (unchanged_setPc s _).sameExcept⟩⟩

/-! ### Skips (R143 to R146) -/

/-- Settles O27: each skip is one write of PC, decided by V[X] and KK. -/
theorem skipsCompareWithLiteral : Obligations.SkipsCompareWithLiteral :=
  ⟨wordsOf_row 4 (by decide), wordsOf_row 5 (by decide), fun x kk s =>
    ⟨⟨_, exec_seKk s x kk, rfl, (unchanged_setPc s _).sameExcept⟩,
      ⟨_, exec_sneKk s x kk, rfl, (unchanged_setPc s _).sameExcept⟩⟩⟩

/-- Settles O28: each skip is one write of PC, decided by V[X] and V[Y]. -/
theorem skipsCompareRegisters : Obligations.SkipsCompareRegisters :=
  ⟨wordsOf_row 6 (by decide), wordsOf_row 18 (by decide), fun x y s =>
    ⟨⟨_, exec_seVy s x y, rfl, (unchanged_setPc s _).sameExcept⟩,
      ⟨_, exec_sneVy s x y, rfl, (unchanged_setPc s _).sameExcept⟩⟩⟩

/-! ### Call and return (R140, R142) -/

/-- Reading a stack entry after one was written. -/
theorem stack_get_set (v : Vector Word 16) {n : Nat} (h : n < 16) (a : Word) (k : Fin 16) :
    (v.set n a h).get k = if k.val = n then a else v.get k := by
  simp only [Vector.get_eq_getElem, Vector.getElem_set, eq_comm]

/-- Settles O25: below 16 entries the call writes the entry at SP, SP and PC; at 16 it ends in its error. -/
theorem callPushesAndJumps : Obligations.CallPushesAndJumps := by
  refine ⟨wordsOf_row 3 (by decide), fun nnn s => ?_⟩
  rcases exec_call_cases s nnn with ⟨hfull, he⟩ | ⟨hsp, he⟩
  · exact ⟨fun hlt => by omega, fun _ => he⟩
  · refine ⟨fun _ => ⟨_, he, rfl, addrOf_toNat nnn, fun k hk => ?_, fun k hk => ?_, ?_⟩, fun hfull => by omega⟩
    · exact (stack_get_set s.stack hsp s.pc k).trans (if_pos hk)
    · exact (stack_get_set s.stack hsp s.pc k).trans (if_neg hk)
    · exact (exec_unchanged he).sameExcept.mono (by simp [mayChange])

/-- Settles O26: with an entry on the stack the return writes SP and PC; with none it ends in its error. -/
theorem returnPopsIntoPc : Obligations.ReturnPopsIntoPc := by
  refine ⟨wordsOf_row 1 (by decide), fun s => ?_⟩
  rcases exec_ret_cases s with ⟨hempty, he⟩ | ⟨hsp, he⟩
  · exact ⟨fun k hk => by omega, fun _ => he⟩
  · refine ⟨fun k hk => ?_, fun hempty => absurd hempty hsp⟩
    have htop : s.sp.val - 1 = k.val := by omega
    exact ⟨_, he, congrArg s.stack.get (Fin.ext htop), htop, fun _ => rfl,
      (exec_unchanged he).sameExcept.mono (by simp [mayChange])⟩

end Sys2Proof.Machine

/-! ## Proofs of the family 42_alu: register loads, logic, addition, subtraction and the random byte

An instruction that writes no flag is one write of V[X] (`frame_setReg`); 8XY4, 8XY5 and 8XY7 write a flag and then
V[X] (`frame_writeFlagThenReg`). -/

namespace Sys2Proof.Machine

section
variable (s : State) (x : RegIx) (b : Byte)

theorem reg_setReg_self : (s.setReg x b).reg x = b := by
  rw [State.reg_setReg, if_pos rfl]

/-- A write of V[X] changes no other register, VF included, and nothing else. -/
theorem frame_setReg : RegsSameExcept [x] s (s.setReg x b) ∧ SameExcept [.regs] s (s.setReg x b) :=
  ⟨fun _ hr => reg_setReg_of_ne (by simpa using hr), (unchanged_setReg s x b).sameExcept⟩

end

/-! ### Loads, copies and logic (R160 to R165) -/

/-- Settles O30: each is one write of V[X], of KK or of the truncated sum. -/
theorem literalLoadAndAdd : Obligations.LiteralLoadAndAdd := by
  refine ⟨wordsOf_row 7 (by decide), wordsOf_row 8 (by decide), fun x kk s =>
    ⟨⟨_, exec_ldKk s x kk, reg_setReg_self s x kk, frame_setReg s x _⟩,
      ⟨_, exec_addKk s x kk, ?_, frame_setReg s x _⟩⟩⟩
  rw [reg_setReg_self, BitVec.toNat_add]

/-- Settles O31: each is one write of V[X], of V[Y] or of the two registers combined bit by bit. -/
theorem registerCopyAndLogic : Obligations.RegisterCopyAndLogic := by
  refine ⟨wordsOf_row 9 (by decide), wordsOf_row 10 (by decide), wordsOf_row 11 (by decide),
    wordsOf_row 12 (by decide), fun x y s =>
    ⟨⟨_, exec_ldVy s x y, reg_setReg_self s x _, frame_setReg s x _⟩,
      ⟨_, exec_orVy s x y, fun b _ => ?_, frame_setReg s x _⟩,
      ⟨_, exec_andVy s x y, fun b _ => ?_, frame_setReg s x _⟩,
      ⟨_, exec_xorVy s x y, fun b _ => ?_, frame_setReg s x _⟩⟩⟩
  · rw [reg_setReg_self, BitVec.getLsbD_or]
  · rw [reg_setReg_self, BitVec.getLsbD_and]
  · rw [reg_setReg_self, BitVec.getLsbD_xor]

/-! ### Addition and subtraction (R166, R167, R169) -/

theorem carryFlag_eq (a b : Byte) : carryFlag a b = if 255 < a.toNat + b.toNat then 1 else 0 := by
  simp only [carryFlag, flagByte, decide_eq_true_eq]

theorem noBorrowFlag_eq (a b : Byte) : noBorrowFlag a b = if b.toNat < a.toNat then 1 else 0 := by
  simp only [noBorrowFlag, flagByte, decide_eq_true_eq]

theorem toNat_sub_byte (a b : Byte) : (a - b).toNat = (a.toNat + 256 - b.toNat) % 256 := by
  have := b.isLt
  rw [BitVec.toNat_sub]
  omega

/-- Settles O32: the carry is written first and the truncated sum second. -/
theorem addSetsCarry : Obligations.AddSetsCarry := by
  refine ⟨wordsOf_row 13 (by decide), fun x y s =>
    ⟨_, exec_addVy s x y, ?_, fun hx => ?_, frame_writeFlagThenReg s _ x _⟩⟩
  · rw [reg_writeFlagThenReg_self, BitVec.toNat_add]
  · rw [reg_writeFlagThenReg_vf _ _ _ hx, carryFlag_eq]

/-- Settles O33: the strict comparison is written first and the difference second, 8XY7 with the operands exchanged. -/
theorem subtractSetsStrictFlag : Obligations.SubtractSetsStrictFlag := by
  refine ⟨wordsOf_row 14 (by decide), wordsOf_row 16 (by decide), fun x y s =>
    ⟨⟨_, exec_sub s x y, ?_, fun hx => ?_, frame_writeFlagThenReg s _ x _⟩,
      ⟨_, exec_subn s x y, ?_, fun hx => ?_, frame_writeFlagThenReg s _ x _⟩⟩⟩
  · rw [reg_writeFlagThenReg_self, toNat_sub_byte]
  · rw [reg_writeFlagThenReg_vf _ _ _ hx, noBorrowFlag_eq]
  · rw [reg_writeFlagThenReg_self, toNat_sub_byte]
  · rw [reg_writeFlagThenReg_vf _ _ _ hx, noBorrowFlag_eq]

/-! ### The random byte (R171) -/

/-- Settles O35: the draw changes the count alone, and the drawn byte AND KK is then one write of V[X]. -/
theorem randomByteIsMasked : Obligations.RandomByteIsMasked := by
  refine ⟨wordsOf_row 21 (by decide), fun x kk s => ⟨_, exec_rnd s x kk, fun b _ => ?_, rfl, ?_, ?_⟩⟩
  · rw [reg_setReg_self, BitVec.getLsbD_and]
  · exact (frame_setReg (s.setDraws (s.draws + 1)) x _).1
  · exact ((unchanged_draw s _).append (unchanged_setReg _ x _)).sameExcept.mono (by simp)

end Sys2Proof.Machine

/-! ## Proofs of the family 43_index_memory: the index register and the transfers between registers and memory

ANNN, FX1E and FX29 write I by the equation of their instruction. FX33, FX55 and FX65 move one range of bytes or end in
their error, by the two cases of each; what the range then holds is `byteAt_writeBytes_add` for the stores and
`reg_loadRegs_readBytes` for the load. -/

namespace Sys2Proof.Machine

/-! ### The index register (R180 to R182) -/

/-- Settles O36: I receives NNN zero-extended. -/
theorem loadIndexLiteral : Obligations.LoadIndexLiteral :=
  ⟨wordsOf_row 19 (by decide), fun nnn s =>
    ⟨_, exec_ldI s nnn, addrOf_toNat nnn, (unchanged_setI s _).sameExcept⟩⟩

theorem indexOverflowFlag_eq (i : Word) (b : Byte) :
    indexOverflowFlag i b = if 0xFFF < i.toNat + b.toNat then 1 else 0 := by
  simp only [indexOverflowFlag, flagByte, decide_eq_true_eq]

/-- Settles O37: the flag is one write of VF and the sum, reduced to 12 bits, one write of I. -/
theorem addToIndexSetsOverflow : Obligations.AddToIndexSetsOverflow := by
  refine ⟨wordsOf_row 29 (by decide), fun x s =>
    ⟨_, exec_addIVx s x, ?_, ?_, fun r hr => ?_, (exec_unchanged (exec_addIVx s x)).sameExcept⟩⟩
  · rw [State.setI_i, BitVec.toNat_ofNat]
    omega
  · exact (reg_setReg_self s vf _).trans (indexOverflowFlag_eq s.i (s.reg x))
  · exact (frame_setReg s vf _).1 r hr

/-- Settles O38: five times a byte is a number that 16 bits hold. -/
theorem glyphAddressIsFiveTimes : Obligations.GlyphAddressIsFiveTimes :=
  ⟨wordsOf_row 30 (by decide), fun x s =>
    ⟨_, exec_ldFVx s x, glyphAddr_toNat (s.reg x), (unchanged_setI s _).sameExcept⟩⟩

/-! ### The decimal digits (R183) -/

@[simp] theorem length_decimalDigits (b : Byte) : (decimalDigits b).length = 3 := rfl

/-- A digit is below 256, so the byte that holds it loses nothing. -/
theorem toNat_decimalDigits (b : Byte) :
    (decimalDigits b)[0].toNat = b.toNat / 100 ∧ (decimalDigits b)[1].toNat = b.toNat / 10 % 10 ∧
    (decimalDigits b)[2].toNat = b.toNat % 10 := by
  have := b.isLt
  simp only [decimalDigits, List.getElem_cons_zero, List.getElem_cons_succ, BitVec.toNat_ofNat]
  omega

/-- FX33 leaves the digits of V[X] at the old I and up (R183). -/
theorem byteAt_of_ldBVx {x : RegIx} {s t : State} (hm : s.mem.wf) (h : exec (.ldBVx x) s = .next t) :
    (t.byteAt s.i.toNat).toNat = (s.reg x).toNat / 100 ∧
    (t.byteAt (s.i.toNat + 1)).toNat = (s.reg x).toNat / 10 % 10 ∧
    (t.byteAt (s.i.toNat + 2)).toNat = (s.reg x).toNat % 10 := by
  obtain ⟨hin, rfl⟩ := exec_ldBVx_next h
  obtain ⟨hundreds, tens, units⟩ := toNat_decimalDigits (s.reg x)
  have hbyte {j : Nat} (hj : j < 3) := congrArg BitVec.toNat (byteAt_writeBytes_add hm hin hj)
  exact ⟨(hbyte (j := 0) (by decide)).trans hundreds, (hbyte (j := 1) (by decide)).trans tens,
    (hbyte (j := 2) (by decide)).trans units⟩

/-- Settles O39: in bounds the three digits are one written range; beyond, the instruction ends in its error. -/
theorem decimalDigitsAreStored : Obligations.DecimalDigitsAreStored := by
  refine ⟨wordsOf_row 31 (by decide), fun x s hm => ?_⟩
  rcases exec_ldBVx_cases s x with ⟨hout, he⟩ | ⟨hin, hle, he⟩
  · exact ⟨fun h => by omega, fun _ => he⟩
  · obtain ⟨hundreds, tens, units⟩ := byteAt_of_ldBVx hm he
    refine ⟨fun _ => ⟨_, he, hundreds, tens, units, ?_, bytesSameOutside_writeBytes hm hin,
      (exec_unchanged he).sameExcept⟩, fun h => by omega⟩
    rw [hundreds, tens, units]
    omega

/-! ### Storing and loading registers (R184, R185) -/

/-- Settles O40: in bounds the registers are one written range; beyond, the instruction ends in its error. -/
theorem registersAreStored : Obligations.RegistersAreStored := by
  refine ⟨wordsOf_row 32 (by decide), fun x s hm => ?_⟩
  rcases exec_stInd_cases s x with ⟨hout, he⟩ | ⟨hin, hle, he⟩
  · exact ⟨fun h => by omega, fun _ => he⟩
  · refine ⟨fun _ => ⟨_, he, fun j => byteAt_of_stInd hm he, ?_, indexPast_toNat s x hle,
      (exec_unchanged he).sameExcept⟩, fun h => by omega⟩
    exact length_regsUpTo s x ▸ bytesSameOutside_writeBytes hm hin

/-- Every register after the first `n` were loaded from memory. -/
theorem reg_loadRegs_readBytes (s : State) (a n : Nat) (r : RegIx) :
    (loadRegs s (s.mem.readBytes a n)).reg r = if r.val < n then s.byteAt (a + r.val) else s.reg r := by
  rw [reg_loadRegs]
  split
  · next hr => exact Memory.getD_readBytes _ _ _ _ hr _
  · next hr => exact List.getD_eq_default _ _ (by rw [Memory.length_readBytes]; omega)

/-- FX65 leaves in V0 to VX the bytes at the old I and up, and keeps the registers above X (R185). -/
theorem reg_of_ldInd {x : RegIx} {s t : State} (h : exec (.ldInd x) s = .next t) (r : RegIx) :
    t.reg r = if r ≤ x then s.byteAt (s.i.toNat + r.val) else s.reg r := by
  obtain ⟨-, rfl⟩ := exec_ldInd_next h
  simp only [State.reg_setI, reg_loadRegs_readBytes, Nat.lt_succ_iff, Fin.le_def]

/-- Settles O41: in bounds V0 to VX are loaded from one range; beyond, the instruction ends in its error. -/
theorem registersAreLoaded : Obligations.RegistersAreLoaded := by
  refine ⟨wordsOf_row 33 (by decide), fun x s => ?_⟩
  rcases exec_ldInd_cases s x with ⟨hout, he⟩ | ⟨hle, he⟩
  · exact ⟨fun h => by omega, fun _ => he⟩
  · exact ⟨fun _ => ⟨_, he, fun j hj => (reg_of_ldInd he j).trans (if_pos hj),
      fun j hj => (reg_of_ldInd he j).trans (if_neg (Fin.not_le.mpr hj)), indexPast_toNat s x hle,
      (exec_unchanged he).sameExcept⟩, fun h => by omega⟩

/-- Settles O42: the store was in bounds, so the load from the same I is, and it reads the bytes the store left. -/
theorem storeThenLoadRestoresRegisters : Obligations.StoreThenLoadRestoresRegisters := by
  intro x s t u hm ht hu hi
  rcases exec_ldInd_cases u x with ⟨hout, -⟩ | ⟨-, hv⟩
  · obtain ⟨-, hle, -⟩ := exec_stInd_next ht
    rw [hi] at hout
    omega
  · refine ⟨_, hv, fun j hj => ?_, ?_⟩
    · rw [reg_of_ldInd hv, if_pos hj, hu, hi, byteAt_of_stInd hm ht hj]
    · obtain ⟨-, -, rfl⟩ := exec_stInd_next ht
      simp only [State.setI_i, indexPast, hi]

end Sys2Proof.Machine

/-! ## Proofs of the family 44_display: clear screen and sprite draw

The scan of R202 toggles one list of pixels, those that the sprite's set bits fall on (`drawSprite_eq_foldl`). A sprite
of at most 32 rows puts no two bits on one pixel (`nodup_litPixels`), so a draw toggles each listed pixel once
(`pixel_drawSprite`) and hits those that were on before it began (`hit_drawSprite`). -/

namespace Sys2Proof.Machine

/-! ### Clear screen (R201) -/

/-- Settles O46: 00E0 is one write of the screen. -/
theorem clearScreenTurnsEveryPixelOff : Obligations.ClearScreenTurnsEveryPixelOff :=
  ⟨wordsOf_row 0 (by decide), fun s =>
    ⟨_, exec_cls s, FrameBuffer.pixel_clear, rfl, (unchanged_setScreen s _).sameExcept⟩⟩

/-! ### Toggling a list of pixels -/

/-- R202 for one set bit: its pixel is toggled, and `hit` records whether it was on. -/
def togglePixel (acc : FrameBuffer × Bool) (p : Fin 32 × Fin 64) : FrameBuffer × Bool :=
  (acc.1.setPixel p.1 p.2 (acc.1.pixel p.1 p.2 ^^ true), acc.2 || acc.1.pixel p.1 p.2)

section
variable (acc : FrameBuffer × Bool) {p p' : Fin 32 × Fin 64} {ps : List (Fin 32 × Fin 64)}

theorem pixel_togglePixel_self : (togglePixel acc p).1.pixel p.1 p.2 = !acc.1.pixel p.1 p.2 := by
  rw [togglePixel, FrameBuffer.pixel_setPixel, if_pos ⟨rfl, rfl⟩, Bool.xor_true]

theorem pixel_togglePixel_of_ne (h : p' ≠ p) : (togglePixel acc p).1.pixel p'.1 p'.2 = acc.1.pixel p'.1 p'.2 := by
  rw [togglePixel, FrameBuffer.pixel_setPixel, if_neg fun he => h (Prod.ext he.1 he.2)]

/-- Toggling different pixels one after the other toggles each of them and no other. -/
theorem pixel_foldl_togglePixel (hps : ps.Nodup) :
    (ps.foldl togglePixel acc).1.pixel p'.1 p'.2 = (acc.1.pixel p'.1 p'.2 ^^ decide (p' ∈ ps)) := by
  induction ps generalizing acc with
  | nil => exact (Bool.xor_false _).symm
  | cons p ps ih =>
    obtain ⟨hp, hps⟩ := List.nodup_cons.mp hps
    rw [List.foldl_cons, ih _ hps]
    by_cases h : p' = p
    · subst h
      simp [pixel_togglePixel_self, hp]
    · simp [pixel_togglePixel_of_ne acc h, h]

/-- It hits when one of them was on before the first was toggled. -/
theorem hit_foldl_togglePixel (hps : ps.Nodup) :
    (ps.foldl togglePixel acc).2 = true ↔ acc.2 = true ∨ ∃ p ∈ ps, acc.1.pixel p.1 p.2 = true := by
  induction ps generalizing acc with
  | nil => simp
  | cons p ps ih =>
    obtain ⟨hp, hps⟩ := List.nodup_cons.mp hps
    have hrest : ∀ p' ∈ ps, (togglePixel acc p).1.pixel p'.1 p'.2 = acc.1.pixel p'.1 p'.2 := fun p' hp' =>
      pixel_togglePixel_of_ne acc fun he => hp (he ▸ hp')
    rw [List.foldl_cons, ih _ hps, List.exists_mem_cons_iff, ← or_assoc]
    exact or_congr Bool.or_eq_true_iff (exists_congr fun p' => and_congr_right fun hp' => by rw [hrest p' hp'])

end

/-! ### The pixels of a sprite (R200, R202) -/

/-- The places of a sprite of `n` rows in the order of the scan: sprite row and column offset. -/
def scan (n : Nat) : List (Nat × Nat) := (List.range n).product (List.range 8)

/-- The sprite's bit at a place; column offset 0 is bit 7. -/
def spriteBit (rows : List Byte) (p : Nat × Nat) : Bool := (rows.getD p.1 0).getLsbD (7 - p.2)

/-- The pixel that a place of a sprite at column x and row y falls on, each coordinate wrapped on its own. -/
def pixelOf (x y : Nat) (p : Nat × Nat) : Fin 32 × Fin 64 := (Fin.ofNat 32 (y + p.1), Fin.ofNat 64 (x + p.2))

/-- The pixels that the set bits of a sprite fall on, in the order of the scan. -/
def litPixels (rows : List Byte) (x y : Nat) : List (Fin 32 × Fin 64) :=
  ((scan rows.length).filter (spriteBit rows)).map (pixelOf x y)

section
variable (rows : List Byte) (x y : Nat)

theorem mem_scan {n j b : Nat} : (j, b) ∈ scan n ↔ j < n ∧ b < 8 := by
  rw [scan, List.pair_mem_product, List.mem_range, List.mem_range]

theorem drawPixel_eq (acc : FrameBuffer × Bool) (p : Nat × Nat) : drawPixel rows x y acc p.1 p.2 =
    if spriteBit rows p then togglePixel acc (pixelOf x y p) else acc := rfl

theorem drawSprite_eq_foldl (fb : FrameBuffer) :
    drawSprite rows x y fb = (litPixels rows x y).foldl togglePixel (fb, false) := by
  have hscan : drawSprite rows x y fb =
      (scan rows.length).foldl (fun acc p => drawPixel rows x y acc p.1 p.2) (fb, false) := by
    simp only [drawSprite, scan, List.product, List.foldl_flatMap, List.foldl_map]
  simp only [hscan, drawPixel_eq, litPixels, List.foldl_map, List.foldl_filter]

/-- Places fewer than 32 rows and 64 columns apart fall on different pixels. -/
theorem nodup_litPixels {rows : List Byte} (h : rows.length ≤ 32) : (litPixels rows x y).Nodup := by
  refine List.Nodup.map_on (fun (j, b) hp (k, c) hq he => ?_) ((List.nodup_range.product List.nodup_range).filter _)
  obtain ⟨hj, hb⟩ := mem_scan.mp (List.mem_of_mem_filter hp)
  obtain ⟨hk, hc⟩ := mem_scan.mp (List.mem_of_mem_filter hq)
  obtain ⟨hrow, hcol⟩ : (y + j) % 32 = (y + k) % 32 ∧ (x + b) % 64 = (x + c) % 64 := by
    simpa [pixelOf, Fin.ext_iff] using he
  rw [Prod.mk.injEq]
  omega

theorem mem_litPixels {r : Fin 32} {c : Fin 64} : (r, c) ∈ litPixels rows x y ↔
    ∃ j b, j < rows.length ∧ b < 8 ∧ (rows.getD j 0).getLsbD (7 - b) = true ∧
      r.val = (y + j) % 32 ∧ c.val = (x + b) % 64 := by
  simp only [litPixels, List.mem_map, List.mem_filter, Prod.exists, mem_scan, spriteBit, pixelOf, Prod.mk.injEq,
    Fin.ext_iff, Fin.val_ofNat, and_assoc, eq_comm (b := r.val), eq_comm (b := c.val)]

/-- A sprite of zero bytes alone lights no pixel. -/
theorem exists_mem_litPixels_iff : (∃ p, p ∈ litPixels rows x y) ↔ ∃ b ∈ rows, b ≠ 0 := by
  simp only [Prod.exists, mem_litPixels]
  constructor
  · rintro ⟨-, -, j, b, hj, -, hbit, -⟩
    refine ⟨rows[j], List.getElem_mem hj, fun h0 => ?_⟩
    rw [List.getD_eq_getElem _ _ hj, h0, BitVec.ofNat_eq_ofNat, BitVec.getLsbD_zero] at hbit
    exact Bool.false_ne_true hbit
  · rintro ⟨b, hb, h0⟩
    obtain ⟨j, hj, rfl⟩ := List.mem_iff_getElem.mp hb
    have hclz : rows[j].clz.toNat < 8 := BitVec.lt_def.mp (BitVec.clz_lt_iff_ne_zero.mpr h0)
    refine ⟨Fin.ofNat 32 (y + j), Fin.ofNat 64 (x + rows[j].clz.toNat), j, rows[j].clz.toNat, hj, hclz, ?_, rfl, rfl⟩
    rw [List.getD_eq_getElem _ _ hj]
    exact BitVec.getLsbD_true_clz_of_ne_zero (by decide) h0

end

/-! ### What a draw does (R202, R203) -/

section
variable {rows : List Byte} (h : rows.length ≤ 32) (x y : Nat) (fb : FrameBuffer)
include h

/-- A draw toggles the pixels that the sprite's set bits fall on. -/
theorem pixel_drawSprite (r : Fin 32) (c : Fin 64) :
    (drawSprite rows x y fb).1.pixel r c = (fb.pixel r c ^^ decide ((r, c) ∈ litPixels rows x y)) := by
  rw [drawSprite_eq_foldl]
  exact pixel_foldl_togglePixel (fb, false) (p' := (r, c)) (nodup_litPixels x y h)

/-- A draw hits when one of them is on. -/
theorem hit_drawSprite :
    (drawSprite rows x y fb).2 = true ↔ ∃ r c, (r, c) ∈ litPixels rows x y ∧ fb.pixel r c = true := by
  rw [drawSprite_eq_foldl, hit_foldl_togglePixel _ (nodup_litPixels x y h), Prod.exists]
  exact or_iff_right Bool.false_ne_true

theorem drawSprite_drawSprite : (drawSprite rows x y (drawSprite rows x y fb).1).1 = fb :=
  FrameBuffer.ext_pixel fun r c => by
    rw [pixel_drawSprite h, pixel_drawSprite h, Bool.xor_assoc, Bool.xor_self, Bool.xor_false]

end

/-- Settles O48: a toggle undoes itself, and after a draw on a clear framebuffer the lit pixels are those on. -/
theorem drawingTwiceRestores : Obligations.DrawingTwiceRestores := by
  intro rows x y h
  replace h : rows.length ≤ 32 := by omega
  refine ⟨drawSprite_drawSprite h x y, ?_, ?_⟩
  · rw [← Bool.not_eq_true, hit_drawSprite h]
    simp
  · rw [hit_drawSprite h, ← exists_mem_litPixels_iff rows x y, Prod.exists]
    simp [pixel_drawSprite h]

/-! ### DXYN (R202, R203) -/

/-- The lit pixels of a sprite in memory, by the bytes that hold it. -/
theorem mem_litPixels_readBytes (s : State) (a n x y : Nat) {r : Fin 32} {c : Fin 64} :
    (r, c) ∈ litPixels (s.mem.readBytes a n) x y ↔
      ∃ j b, j < n ∧ b < 8 ∧ (s.byteAt (a + j)).getLsbD (7 - b) = true ∧
        r.val = (y + j) % 32 ∧ c.val = (x + b) % 64 := by
  rw [mem_litPixels, Memory.length_readBytes]
  refine exists_congr fun j => exists_congr fun b => and_congr_right fun hj => ?_
  rw [Memory.getD_readBytes _ _ _ _ hj, State.byteAt]

/-- Settles O47: in bounds the instruction is one draw of the sprite at I; beyond, it ends in its error. -/
theorem drawTogglesTheSpritePixels : Obligations.DrawTogglesTheSpritePixels := by
  refine ⟨wordsOf_row 22 (by decide), fun x y n s => ?_⟩
  simp only [← mem_litPixels_readBytes]
  rcases exec_drw_cases s x y n with ⟨hout, hn, he⟩ | ⟨hin, he⟩
  · exact ⟨fun h => by omega, fun _ _ => he⟩
  · have hlen : (s.mem.readBytes s.i.toNat n.toNat).length ≤ 32 := by
      rw [Memory.length_readBytes]
      omega
    refine ⟨fun _ => ⟨_, he, fun r c hl => ?_, fun r c hl => ?_, fun hhit => ?_, fun hhit => ?_, rfl, ?_,
      (exec_unchanged he).sameExcept⟩, fun _ _ => by omega⟩
    · rw [State.setScreen_fb, pixel_drawSprite hlen, decide_eq_true hl, Bool.xor_true]
    · rw [State.setScreen_fb, pixel_drawSprite hlen, decide_eq_false hl, Bool.xor_false]
    · rw [State.reg_setScreen, (hit_drawSprite hlen _ _ _).mpr hhit]
      exact reg_setReg_self s vf 1
    · rw [State.reg_setScreen, Bool.eq_false_of_not_eq_true (mt (hit_drawSprite hlen _ _ _).mp hhit)]
      exact reg_setReg_self s vf 0
    · exact (frame_setReg s vf _).1

end Sys2Proof.Machine

/-! ## Proofs of the family 45_keypad_timers: the key skips and the issuing of the key wait

A key skip is one write of PC, decided by the key that the low nibble of V[X] numbers (`keyDown_eq`). -/

namespace Sys2Proof.Machine

/-! ### The key skips (R210, R211, R216) -/

theorem keyNamed_val (b : Byte) : (keyNamed b).val = b.toNat % 16 := BitVec.extractLsb'_toNat 0 4 b

/-- The key looked at is the one that V[X] numbers modulo 16. -/
theorem keyDown_eq {s : State} {x : RegIx} {k : KeyIx} (hk : k.val = (s.reg x).toNat % 16) :
    keyDown s x = s.key.get k :=
  congrArg s.key.get (Fin.ext ((keyNamed_val _).trans hk.symm))

/-- Settles O49: each skip is one write of PC, decided by the key that V[X] names. -/
theorem keySkipsReadTheLowNibble : Obligations.KeySkipsReadTheLowNibble := by
  refine ⟨wordsOf_row 23 (by decide), wordsOf_row 24 (by decide), fun x k s hk => ?_⟩
  rw [← keyDown_eq hk]
  exact ⟨⟨_, exec_skp s x, rfl, (unchanged_setPc s _).sameExcept⟩,
    ⟨_, exec_sknp s x, rfl, (unchanged_setPc s _).sameExcept⟩⟩

/-! ### The issuing cycle of the key wait (R212) -/

/-- Settles O50: FX0A is one write of the wait marker, from every state. -/
theorem keyWaitIsIssued : Obligations.KeyWaitIsIssued :=
  ⟨wordsOf_row 26 (by decide), fun x s => ⟨_, exec_ldVxK s x, rfl, rfl, (unchanged_beginWait s x).sameExcept⟩⟩

end Sys2Proof.Machine

/-! ## Proofs of the family 60_exceptions: which cycles end in which error (R231 to R235), the host operations (R245 to
R249)

An error of a cycle is the fetch's or the instruction's (`step_fault_iff`). The fetch has two (`fetchInstr_error_iff`),
and the six instructions that can end in one do so exactly as `Raises` says (`exec_fault_iff`). -/

namespace Sys2Proof.Machine

/-! ### The error of an instruction -/

/-- R231, R232, R233: the error that an instruction, dispatched in `s`, ends in, and when. -/
def Raises (s : State) (i : Instr) (e : Fault) : Prop :=
  match i with
  | .drw _ _ n => e = .memoryOverflow ∧ 1 ≤ n.toNat ∧ 0xFFF < s.i.toNat + n.toNat - 1
  | .ldBVx _ => e = .memoryOverflow ∧ 0xFFF < s.i.toNat + 2
  | .stInd x | .ldInd x => e = .memoryOverflow ∧ 0xFFF < s.i.toNat + x.val
  | .call _ => e = .stackOverflow ∧ s.sp.val = 16
  | .ret => e = .stackUnderflow ∧ s.sp.val = 0
  | _ => False

section
variable {s : State} {i : Instr} {e : Fault}

/-- The conditions read I and SP alone, so it does not matter that PC has moved on. -/
theorem raises_advancePc : Raises (advancePc s) i e ↔ Raises s i e := Iff.rfl

/-- An instruction ends in an error exactly under its condition; 28 never do. -/
theorem exec_fault_iff : exec i s = .fault e ↔ Raises s i e := by
  cases i with
  | ret => rcases exec_ret_cases s with ⟨h, he⟩ | ⟨h, he⟩ <;> simp [he, Raises, h, eq_comm]
  | call nnn => rcases exec_call_cases s nnn with ⟨h, he⟩ | ⟨h, he⟩ <;> simp [he, Raises, eq_comm] <;> omega
  | drw x y n => rcases exec_drw_cases s x y n with ⟨h, hn, he⟩ | ⟨h, he⟩ <;> simp [he, Raises, eq_comm] <;> omega
  | ldBVx x => rcases exec_ldBVx_cases s x with ⟨h, he⟩ | ⟨-, h, he⟩ <;> simp [he, Raises, eq_comm] <;> omega
  | stInd x => rcases exec_stInd_cases s x with ⟨h, he⟩ | ⟨-, h, he⟩ <;> simp [he, Raises, eq_comm] <;> omega
  | ldInd x => rcases exec_ldInd_cases s x with ⟨h, he⟩ | ⟨h, he⟩ <;> simp [he, Raises, eq_comm] <;> omega
  | _ => exact iff_of_false nofun id

theorem raises_stackOverflow : Raises s i .stackOverflow ↔ (∃ nnn, i = .call nnn) ∧ s.sp.val = 16 := by
  cases i <;> simp [Raises]

theorem raises_stackUnderflow : Raises s i .stackUnderflow ↔ i = .ret ∧ s.sp.val = 0 := by
  cases i <;> simp [Raises]

theorem not_raises_decodeError : ¬ Raises s i .decodeError := by cases i <;> simp [Raises]

theorem not_raises_romTooLarge : ¬ Raises s i .romTooLarge := by cases i <;> simp [Raises]

/-! ### The error of a cycle -/

/-- A whole word can be rejected for one reason only. -/
theorem eq_illegal_of_decode_error {w : Word} {e : Reject} (h : decode w = .error e) : e = .illegal := by
  rcases decodeWith_cases opcodeRows w with ⟨r, -, -, he⟩ | ⟨-, he⟩ <;> rw [decode, he] at h <;> cases h
  rfl

/-- The two errors of a fetch: PC past the last word of memory, and a word that has no instruction (R239). -/
theorem fetchInstr_error_iff : fetchInstr s = .error e ↔
    (e = .memoryOverflow ∧ 0xFFE < s.pc.toNat) ∨
    (e = .decodeError ∧ ∃ w, fetchWord s = .ok w ∧ decode w = .error .illegal) := by
  rcases fetchInstr_cases s with ⟨hpc, hf⟩ | ⟨hpc, w, hw, ⟨i, hi, hf⟩ | ⟨r, hi, hf⟩⟩ <;> rw [hf]
  · simp [hpc, fetchWord_outOfBounds hpc, eq_comm]
  · simp [hpc.not_gt, hw, hi]
  · simp [hpc.not_gt, hw, hi, eq_illegal_of_decode_error hi, eq_comm]

/-- A cycle ends in an error exactly when it is not in the key wait and its fetch, or the instruction it executes,
does. -/
theorem step_fault_iff : step s = .fault e ↔
    (s.waitV = false ∧ fetchInstr s = .error e) ∨ ∃ i, Runs s i ∧ Raises s i e := by
  rcases step_cases s with ⟨hw, hs⟩ | ⟨hw, e', hf, hs⟩ | ⟨hw, i, hf, hs⟩ <;> rw [hs]
  · simp [Runs, hw]
  · simp [Runs, hw, hf]
  · simp [Runs, hw, hf, finish_fault, exec_fault_iff, raises_advancePc]

end

/-- Settles O14: of the two sources of an error only the fetch has this one. -/
theorem decodeErrorExactlyOnIllegalWords : Obligations.DecodeErrorExactlyOnIllegalWords := by
  intro s
  simp [step_fault_iff, fetchInstr_error_iff, not_raises_decodeError]

/-- Settles O15: the fetch's own condition, and those of the four instructions that access memory. -/
theorem memoryOverflowExactlyByTheTable : Obligations.MemoryOverflowExactlyByTheTable := by
  intro s
  rw [step_fault_iff, fetchInstr_error_iff]
  constructor
  · rintro (⟨hw, ⟨-, hpc⟩ | ⟨⟨⟩, -⟩⟩ | ⟨i, hr, hi⟩)
    · exact .inl ⟨hw, hpc⟩
    · cases i with
      | drw x y n => exact .inr (.inl ⟨x, y, n, hr, hi.2⟩)
      | ldBVx x => exact .inr (.inr (.inl ⟨x, hr, hi.2⟩))
      | stInd x => exact .inr (.inr (.inr (.inl ⟨x, hr, hi.2⟩)))
      | ldInd x => exact .inr (.inr (.inr (.inr ⟨x, hr, hi.2⟩)))
      | ret | call => exact nomatch hi.1
      | _ => cases hi
  · rintro (⟨hw, hpc⟩ | ⟨x, y, n, hr, hi⟩ | ⟨x, hr, hi⟩ | ⟨x, hr, hi⟩ | ⟨x, hr, hi⟩)
    · exact .inl ⟨hw, .inl ⟨rfl, hpc⟩⟩
    all_goals exact .inr ⟨_, hr, rfl, hi⟩

/-- Settles O16: no fetch ends in a stack error; of the instructions 2NNN alone ends in the one, and 00EE in the other. -/
theorem stackErrorsExactlyAtTheEnds : Obligations.StackErrorsExactlyAtTheEnds := by
  intro s
  simp [step_fault_iff, fetchInstr_error_iff, raises_stackOverflow, raises_stackUnderflow]

/-! ### load_program (R235, R245) -/

section
variable {bytes : List Byte} {s : State}

theorem loadProgram_of_le (h : bytes.length ≤ 3584) :
    loadProgram bytes s = .next (s.setMem (s.mem.writeBytes 0x200 bytes)) := if_neg h.not_gt

theorem loadProgram_of_lt (h : 3584 < bytes.length) : loadProgram bytes s = .fault .romTooLarge := if_pos h

end

/-- Settles O17: neither the fetch nor an instruction has this error, and a load has it exactly when it is too long. -/
theorem romTooLargeOnlyFromLoad : Obligations.RomTooLargeOnlyFromLoad := by
  refine ⟨fun s => ?_, fun bytes s => ⟨fun h => ?_, loadProgram_of_lt⟩⟩
  · simp [step_fault_iff, fetchInstr_error_iff, not_raises_romTooLarge]
  · by_contra hle
    rw [loadProgram_of_le (not_lt.mp hle)] at h
    cases h

/-- Settles O54: 3584 bytes from 0x200 end with memory, so the range laws of memory apply. -/
theorem loadProgramWritesItsBytes : Obligations.LoadProgramWritesItsBytes := by
  refine fun bytes s hm => ⟨fun hle => ?_, fun hlt => ⟨loadProgram_of_lt hlt, ?_⟩⟩
  · have hin : inBounds 0x200 bytes.length := (inBounds_iff_last _ _).mpr (by omega)
    exact ⟨_, loadProgram_of_le hle, fun j => byteAt_writeBytes_add hm hin, bytesSameOutside_writeBytes hm hin,
      (unchanged_setMem s _).sameExcept⟩
  · simp [hostMove, loadProgram_of_lt hlt]

/-! ### set_key (R246) -/

theorem executeCycle_key (s : State) : (executeCycle s).1.key = s.key := by
  rcases executeCycle_state_cases s with ⟨t, hstep, ht⟩ | hkeep
  · rw [ht, step_key hstep]
  · rw [hkeep]

/-- Of the host's moves only reset and set_key write keys. -/
theorem hostMove_key {m : HostMove} (s : State) (hr : m ≠ .reset) (hk : ∀ k pressed, m ≠ .setKey k pressed) :
    (hostMove m s).key = s.key := by
  cases m with
  | reset => exact absurd rfl hr
  | setKey k pressed => exact absurd rfl (hk k pressed)
  | loadProgram bytes =>
    rcases hostMove_loadProgram_cases bytes s with he | ⟨-, he⟩
    · rw [he]
    · rw [he, State.setMem_key]
  | pixelAt | takeChangedFlag | soundTimer => rfl

/-- Settles O55: set_key is one write of the keys, and no cycle and no other move but reset writes them. -/
theorem setKeyWritesOneKey : Obligations.SetKeyWritesOneKey := by
  refine ⟨fun k pressed s => ⟨?_, fun j hj => ?_, (unchanged_setKeyBit s k pressed).sameExcept⟩, executeCycle_key,
    fun m s hr hk => hostMove_key s hr hk⟩
  · rw [key_get_setKey, if_pos rfl]
  · rw [key_get_setKey, if_neg hj]

/-! ### pixel_at, sound_timer, take_changed_flag (R247 to R249) -/

/-- Settles O56: two of the three operations leave the state, the third is one write of the changed flag. -/
theorem hostReadsOfTheDevices : Obligations.HostReadsOfTheDevices := fun _ _ s =>
  ⟨rfl, rfl, rfl, rfl, rfl, rfl, (unchanged_clearChanged s).sameExcept⟩

end Sys2Proof.Machine

/-! ## Proofs of the family other: canonical memories as data (20_memory) and the words written out (95_test_vectors,
section 2.1)

A canonical memory lists exactly the bytes that differ from what reset leaves (`Memory.mem_iff_read`), so its bytes
determine its cells. -/

namespace Sys2Proof.Machine

/-- A canonical memory's cells are the addresses, with their bytes, that do not read as reset leaves them. -/
theorem Memory.mem_iff_read {m : Memory} (hm : m.wf) (a : Nat) (x : Byte) :
    (a, x) ∈ m ↔ m.read a = x ∧ x ≠ Memory.resetByte a := by
  induction m with
  | nil => simpa [Memory.read_nil] using fun h => h.symm
  | cons c m ih =>
    obtain ⟨b, y⟩ := c
    rw [Memory.read_cons, List.mem_cons]
    by_cases hab : a = b
    · subst hab
      have hy : y ≠ Memory.resetByte a := (hm.2 _ List.mem_cons_self).2
      have hrest : (a, x) ∉ m := fun h => lt_irrefl a (Memory.lt_of_wf_cons hm _ h)
      simp only [if_pos, Prod.mk.injEq, true_and, hrest, or_false]
      exact ⟨fun h => ⟨h.symm, h ▸ hy⟩, fun h => h.1.symm⟩
    · rw [if_neg hab, ← ih (Memory.wf_tail hm)]
      simp [hab]

/-- Settles O45: equal bytes make equal sets of cells, and cells by rising address have one order. -/
theorem canonicalMemoriesAreExtensional : Obligations.CanonicalMemoriesAreExtensional := by
  intro m n hm hn hread
  have hmem (c : Host.Cell) : c ∈ m ↔ c ∈ n := by
    rw [Memory.mem_iff_read hm, Memory.mem_iff_read hn, hread]
  have : Std.Asymm fun c d : Host.Cell => c.1 < d.1 := ⟨fun _ _ => Nat.lt_asymm⟩
  exact hm.1.eq_of_mem_iff hn.1 hmem

/-- Settles O6: the ten legal words are what their instructions assemble to, the four illegal ones match no row. -/
theorem writtenOutWordsDecode : Obligations.WrittenOutWordsDecode :=
  ⟨decode_encode .cls, decode_encode .ret, decode_encode (.jp 0xABC), decode_encode (.seKk 0xA 0x42),
    decode_encode (.addVy 3 7), decode_encode (.drw 1 2 5), decode_encode (.skp 1), decode_encode (.stInd 7),
    decode_encode (.ldKk 0 0x12), decode_encode (.shr 6 0xA), decode_illegal_iff.mpr (by decide),
    decode_illegal_iff.mpr (by decide), decode_illegal_iff.mpr (by decide), decode_illegal_iff.mpr (by decide)⟩

end Sys2Proof.Machine
